-- ==== Sys2Proof/Word.lean ====
section
/-! DEFINITION. The widths the spec gives its values (R5, R6): all are unsigned, bit 0 the least significant. -/

namespace Sys2Proof

/-- BYTE_W: a digest or data byte (R5). -/
abbrev Byte := BitVec 8

/-- A command word on the command port (R48). -/
abbrev Word := BitVec 16

/-- A register as the read port returns it (R5, R39). -/
abbrev Reg := BitVec 32

/-- A register address of the read port (R5, R44). -/
abbrev RegAddr := BitVec 2

/-- An item of the output token stream: bit 8 is K, bits 7..0 are CODE (R55). -/
abbrev Token := BitVec 9

end Sys2Proof
end

