-- ==== Sys2Proof/Syntax.lean ====
section
/-! DEFINITION. The seven commands of R52, one constructor per row of the opcode table. -/

namespace Sys2Proof

/-- A command. Its only operand is IMM8, an unsigned byte (R51). -/
inductive Instr where
  /-- NOP (R84). -/
  | nop
  /-- DT.CLR: start a new digest (R63). -/
  | dtClr
  /-- DT.PUSH b: append one byte to the digest (R64). -/
  | dtPush (b : Byte)
  /-- DT.EXEC: truncate the current digest (R65). -/
  | dtExec
  /-- B32.PUSH b: shift one byte into the encoder (R73). -/
  | b32Push (b : Byte)
  /-- B32.END: flush the pending bits and close the frame (R74). -/
  | b32End
  /-- ERR.ACK: acknowledge and clear the recorded error (R85). -/
  | errAck
  deriving DecidableEq, Repr

end Sys2Proof
end

