-- ==== Sys2Proof/WellFormed.lean ====
section
/-! DEFINITION. Which command words are legal: the opcode table of R52 as rows, and the three checks of R48 to R53 a word
must pass. Every term of `Instr` is well formed: its operand type holds exactly the bytes R51 calls legal. -/

namespace Sys2Proof

/-- One row of the opcode table (R52). -/
structure Row where
  mnemonic : String
  bits : Word
  mask : Word
  deriving DecidableEq, Repr

/-- A word matches a row when `(w & mask) = match` (R52). -/
def Row.matches (r : Row) (w : Word) : Bool := w &&& r.mask == r.bits

/-- The opcode table (R52, spec/opcode_table.json). -/
def opcodeTable : List Row :=
  [ ⟨"NOP", 0x0000, 0xFFFF⟩, ⟨"DT.CLR", 0x1000, 0xFFFF⟩, ⟨"DT.PUSH", 0x2000, 0xFF00⟩, ⟨"DT.EXEC", 0x3000, 0xFFFF⟩,
    ⟨"B32.PUSH", 0x4000, 0xFF00⟩, ⟨"B32.END", 0x5000, 0xFFFF⟩, ⟨"ERR.ACK", 0x6000, 0xFFFF⟩ ]

namespace Word

/-- RSV, bits 11..8, must be 0000 (R50). -/
def rsvOk (w : Word) : Bool := w.extractLsb' 8 4 == 0

/-- OP, bits 15..12, must be 0x0..0x6 (R49). -/
def opOk (w : Word) : Bool := w.extractLsb' 12 4 ≤ 6

/-- IMM8, bits 7..0, must be 0x00 unless OP is DT.PUSH's or B32.PUSH's (R51). -/
def immOk (w : Word) : Bool :=
  w.extractLsb' 12 4 == 2 || w.extractLsb' 12 4 == 4 || w.extractLsb' 0 8 == 0

/-- A legal command word (R53 lists the others). -/
def legal (w : Word) : Bool := rsvOk w && opOk w && immOk w

end Word

end Sys2Proof
end

