-- ==== Sys2Proof/Decode.lean ====
section
/-! DEFINITION. Decoding a command word, total on all 65536 words (R54), and the encoder from the same table (R52). -/

namespace Sys2Proof

/-- Which clause of R53 makes a word illegal. The machine treats all three alike (R94); the name is for the reader (log 10). -/
inductive IllegalReason where
  /-- RSV is not 0000 (R50). -/
  | reservedBits
  /-- IMM8 is not 0x00 on a command without an operand (R51). -/
  | unusedOperand
  /-- OP is in 0x7..0xF (R49). -/
  | reservedOpcode
  deriving DecidableEq, Repr

/-- What a word decodes to: a command, or `Illegal(word)` (R54). -/
inductive Decoded where
  | cmd (i : Instr)
  | illegal (w : Word) (why : IllegalReason)
  deriving DecidableEq, Repr

/-- OP, bits 15..12 (R48). -/
def opField (w : Word) : BitVec 4 := w.extractLsb' 12 4

/-- RSV, bits 11..8 (R48). -/
def rsvField (w : Word) : BitVec 4 := w.extractLsb' 8 4

/-- IMM8, bits 7..0 (R48, R51): taken as is. -/
def imm8Field (w : Word) : Byte := w.extractLsb' 0 8

/-- A command without an operand: IMM8 must be 0x00 (R51, R54). -/
def decodeBare (w : Word) (i : Instr) : Decoded :=
  if imm8Field w = 0 then .cmd i else .illegal w .unusedOperand

/-- R54. RSV is looked at first, then OP. -/
def decode (w : Word) : Decoded :=
  if rsvField w ≠ 0 then .illegal w .reservedBits
  else match opField w with
    | 0x0#4 => decodeBare w .nop
    | 0x1#4 => decodeBare w .dtClr
    | 0x2#4 => .cmd (.dtPush (imm8Field w))
    | 0x3#4 => decodeBare w .dtExec
    | 0x4#4 => .cmd (.b32Push (imm8Field w))
    | 0x5#4 => decodeBare w .b32End
    | 0x6#4 => decodeBare w .errAck
    | _ => .illegal w .reservedOpcode

/-- A command word from its fields: `oooo rrrr iiii iiii` with RSV 0000 (R48). -/
def packWord (op : BitVec 4) (imm : Byte) : Word := op ++ 0#4 ++ imm

/-- The word of a command (R52). -/
def encode : Instr → Word
  | .nop => packWord 0x0 0
  | .dtClr => packWord 0x1 0
  | .dtPush b => packWord 0x2 b
  | .dtExec => packWord 0x3 0
  | .b32Push b => packWord 0x4 b
  | .b32End => packWord 0x5 0
  | .errAck => packWord 0x6 0

/-- The word the opcode table numbers `w` (its low `nbits` bits). A command is one 16-bit word on a port: it has no byte
order and no second word (R48, R39; log 18). -/
def tableWord (nbits w : Nat) : Word := BitVec.ofNat 16 (w % 2 ^ nbits)

/-- What the decoder reads from a table row's bits; none where the word is illegal. -/
def decodeTableWord (nbits w : Nat) : Option Instr :=
  match decode (tableWord nbits w) with
  | .cmd i => some i
  | .illegal _ _ => none

end Sys2Proof
end

