-- ==== Sys2Proof/Config.lean ====
section
/-! DEFINITION. What the spec leaves to an implementation or a platform. Every other parameter of R5 is fixed and stands
as a width or a literal where it is used. -/

namespace Sys2Proof.Config

/-- OUT_DEPTH, the output buffering depth, `none` for unbounded. R5 and R110: a named parameter, which the model takes as
unbounded (log 4). The step is written for any depth (`Machine.stepWith`), 0 and 1 too (log 20), and taken at this one. -/
def outDepth : Option Nat := none

/-- CORE_BASE, the system address of register 0x0 where a platform maps the read port into memory (R44). No rule depends on
it and no definition of the model reads it, so it has no value here (log 19). -/
opaque coreBase : Nat

end Sys2Proof.Config
end

