-- ==== Sys2Proof/Machine/State.lean ====
section
/-! DEFINITION. The machine's state as plain data: the block's state items of R11, grouped by unit, and beside them the
host-side histories the spec gives the model (R29, R32) and the host's pending actions (R10). -/

namespace Sys2Proof.Machine

/-- The error codes of R92. The codes 3..15 are reserved and never produced. -/
inductive ErrorCode where
  /-- Code 0: no error since the last ERR.ACK or reset. -/
  | none
  /-- Code 1: DT.EXEC on a digest too short for its own window (R93). -/
  | invalidInput
  /-- Code 2: a word that matches no row of the opcode table (R94). -/
  | illegalCommand
  deriving DecidableEq, Repr

/-- The Dynamic Truncation Unit's state (R11, R13 to R20). -/
structure Dtu where
  /-- LEN: the number of bytes pushed since DT.CLR or reset, saturated at 19 (R14). -/
  len : BitVec 5
  /-- LAST: the byte most recently pushed (R15). -/
  last : Byte
  /-- W[0..18], the window store (R16). -/
  w : Vector Byte 19
  /-- DT_RESULT: the last truncation's result; bit 31 hardwired 0 (R18). -/
  result : Reg
  /-- DT_RVALID (R19). -/
  rvalid : Bool
  /-- DT_INVALID (R20). -/
  invalid : Bool
  deriving DecidableEq, Repr

/-- The Base32 Lookup Encoder's state (R11, R21, R22). -/
structure B32e where
  /-- P: the pending bits, the oldest in bit CNT-1 (R21). -/
  p : BitVec 4
  /-- CNT: how many bits are pending, 0..4 between commands (R22). -/
  cnt : BitVec 3
  deriving DecidableEq, Repr

/-- What the host can do, one action at a time (R10). -/
inductive HostAction where
  /-- Present a command word on the command port (R48). -/
  | command (w : Word)
  /-- REG.READ a (R86). -/
  | read (a : RegAddr)
  /-- Assert RST (R103). -/
  | reset
  /-- Take the oldest token not yet taken from the output stream (R10, R110). -/
  | consume
  deriving DecidableEq, Repr

/-- The state of the model. -/
structure State where
  dtu : Dtu
  b32 : B32e
  /-- ERRCODE: the first error since ERR.ACK or reset (R24). -/
  errcode : BitVec 4
  /-- The command index k: how many commands have been executed; no width, no wrap, kept by RST (R29). -/
  k : Nat
  /-- OUT: every token emitted, in emission order; host-side history, kept by RST (R32, R104). -/
  out : List Token
  /-- The host's pending actions, oldest first (R10, R45; the model's own field, log 1). -/
  port : List HostAction
  /-- The register read port's answers so far, oldest first (R86; the model's own field, log 2). -/
  reads : List (RegAddr × Reg)
  /-- How many tokens of OUT the host has taken (R10, R110; the model's own field, log 3). -/
  consumed : Nat
  deriving DecidableEq, Repr

/-- Why a run stops with a fault: never. The spec gives every command word, every register address and every host action an
effect, and records errors instead of trapping (R87), so no meaning raises a fault; the type has no constructor (safe; log 11). -/
inductive Fault where
  deriving DecidableEq, Repr

/-- Why the machine has no meaning for an instruction. -/
inductive Refusal where
  /-- Raised by `exec` alone, for an instruction whose meaning is not written yet; none is left, so nothing raises it (safe). -/
  | notModelled (mnemonic : String)
  deriving DecidableEq, Repr

/-- The outcome type of every meaning. -/
abbrev Result := Host.Outcome State Fault Refusal

/-- The DTU after reset: the empty digest (R33). -/
def Dtu.reset : Dtu :=
  { len := 0, last := 0, w := Vector.replicate 19 0, result := 0, rvalid := false, invalid := false }

/-- The B32E after reset: a frame boundary (R33). -/
def B32e.reset : B32e := { p := 0, cnt := 0 }

/-- The model's start: every state item at R33's value, no command executed, nothing emitted, nothing pending. -/
def State.reset : State :=
  { dtu := Dtu.reset, b32 := B32e.reset, errcode := 0, k := 0, out := [], port := [], reads := [], consumed := 0 }

end Sys2Proof.Machine
end

