-- ==== Sys2Proof/Machine/Flags.lean ====
section
/-! DEFINITION. The status flags: who writes DT_RVALID, DT_INVALID and ERRCODE (R30), and STATUS as the host reads it (R25). -/

namespace Sys2Proof.Machine

/-- The 4-bit code of an error (R92). -/
def ErrorCode.code : ErrorCode → BitVec 4
  | .none => 0
  | .invalidInput => 1
  | .illegalCommand => 2

/-- ERRCODE after an error: the first code stays (R24). -/
def firstError (old : BitVec 4) (e : ErrorCode) : BitVec 4 := if old = 0 then e.code else old

/-- DT.CLR and DT.PUSH: no result and no failure stands (R63, R64, D9). -/
def Dtu.dropResult (d : Dtu) : Dtu := { d with result := 0, rvalid := false, invalid := false }

/-- DT.EXEC succeeds with a 31-bit value; bit 31 of DT_RESULT stays 0 (R65, R18). -/
def Dtu.giveResult (d : Dtu) (v : BitVec 31) : Dtu :=
  { d with result := v.setWidth 32, rvalid := true, invalid := false }

/-- DT.EXEC fails: no value, the failure flag set (R65, R88). -/
def Dtu.failResult (d : Dtu) : Dtu := { d with result := 0, rvalid := false, invalid := true }

/-- STATUS: `{16'b0, ERRCODE[3:0], 1'b0, CNT[2:0], 1'b0, DT_INVALID, DT_RVALID, LEN[4:0]}` (R25). -/
def statusReg (s : State) : Reg :=
  0#16 ++ s.errcode ++ 0#1 ++ s.b32.cnt ++ 0#1 ++ BitVec.ofBool s.dtu.invalid ++ BitVec.ofBool s.dtu.rvalid ++ s.dtu.len

end Sys2Proof.Machine
end

