-- ==== Sys2Proof/Machine/Operands.lean ====
section
/-! DEFINITION. What the commands read: the digest's offset and window (R59 to R61), the encoder's index and character
(R70). The only operand a command word carries is IMM8, which reaches a meaning as the byte itself (R51). -/

namespace Sys2Proof.Machine

/-- The offset: the low 4 bits of the last byte (R59). -/
def offsetOf (last : Byte) : BitVec 4 := last.extractLsb' 0 4

/-- DT.EXEC's bounds check on the stored digest, negated: LEN is not 0 and `o + 4 <= LEN` (R60, R65). -/
def windowFits (d : Dtu) : Bool :=
  d.len ≠ 0 && (offsetOf d.last).toNat + 4 ≤ d.len.toNat

/-- `W[o + j]` for a window position `j` in 0..3: the index is at most 18, so no read leaves W (R16). -/
def windowByte (d : Dtu) (j : Fin 4) : Byte :=
  have : (offsetOf d.last).toNat + j.val < 19 := by have := (offsetOf d.last).isLt; omega
  d.w[(offsetOf d.last).toNat + j.val]

/-- Four window bytes composed big-endian, the first byte's bit 7 dropped (R36, R61): 31 bits. -/
def compose (b0 b1 b2 b3 : Byte) : BitVec 31 := b0.extractLsb' 0 7 ++ b1 ++ b2 ++ b3

/-- The truncation of the window at the stored offset (R65). -/
def windowValue (d : Dtu) : BitVec 31 :=
  compose (windowByte d 0) (windowByte d 1) (windowByte d 2) (windowByte d 3)

/-- The lookup table: ASCII codes of `A`..`Z` and `2`..`7` (R70, D13; log 8). -/
def lut (i : BitVec 5) : Byte := if i ≤ 25 then 0x41 + i.setWidth 8 else 0x18 + i.setWidth 8

/-- The CHAR token of a character code (R55). -/
def charToken (c : Byte) : Token := 0#1 ++ c

/-- The EOF token (R55). -/
def eofToken : Token := 0x100

end Sys2Proof.Machine
end

