-- ==== Sys2Proof/Machine/Ops.lean ====
section
/-! DEFINITION. The named operations every meaning is written over: state updates, the digest store, the group extractor,
raising and acknowledging an error, the register read, reset, and the output stream's consumption. The block has no
addressable memory (R34; log 7). -/

namespace Sys2Proof.Machine

/-! State updates, one per item. -/

def State.setDtu (s : State) (d : Dtu) : State := { s with dtu := d }
def State.setB32 (s : State) (u : B32e) : State := { s with b32 := u }
def State.setErrcode (s : State) (c : BitVec 4) : State := { s with errcode := c }
def State.setPort (s : State) (acts : List HostAction) : State := { s with port := acts }

/-- One command has been executed: k advances by exactly 1 (R29). -/
def State.tick (s : State) : State := { s with k := s.k + 1 }

/-- `Emit`, token by token, in order (R8, R32). -/
def State.emit (s : State) (ts : List Token) : State := { s with out := s.out ++ ts }

/-- A command that ends has its next state and nothing else: no command stops the block (R87). -/
def done (s : State) : Result := .next s.tick

/-! Errors (R87 to R90). -/

/-- Raising an error, the whole of the block's "trap entry" on the shared state: ERRCODE keeps the first code (R88, R24).
No pc, mode or status is saved (R87). -/
def raiseError (e : ErrorCode) (s : State) : State := s.setErrcode (firstError s.errcode e)

/-- ERR.ACK's effect, the "trap return": ERRCODE <- 0 and nothing is restored (R89, R85). -/
def acknowledge (s : State) : State := s.setErrcode ErrorCode.none.code

/-- An illegal word: ERRCODE records code 2, nothing else is written (R94), and the command index advances (R29). -/
def illegalWord (s : State) : Result := done (raiseError .illegalCommand s)

/-! The DTU's digest store (R13 to R16). -/

/-- Append a byte: W and LEN while LEN < 19, LAST always (R64). -/
def Dtu.store (d : Dtu) (b : Byte) : Dtu :=
  if h : d.len.toNat < 19 then { d with w := d.w.set d.len.toNat b h, len := d.len + 1, last := b }
  else { d with last := b }

/-- Start a new digest: LEN <- 0; W and LAST are not written (R63). -/
def Dtu.restart (d : Dtu) : Dtu := { d with len := 0 }

/-! The B32E's accumulator (R73, R74). -/

/-- The loop of R73: while at least 5 of the `c` low bits of `acc` are left, take the top 5 as an index, emit its
character and keep the rest masked. The first argument bounds the turns; R75: at most two are made. -/
def takeGroups : Nat → BitVec 12 → Nat → List Token × BitVec 12 × Nat
  | 0, acc, c => ([], acc, c)
  | n + 1, acc, c =>
    if 5 ≤ c then
      let idx : BitVec 5 := (acc >>> (c - 5)).setWidth 5
      let rest := takeGroups n (acc &&& ((1#12 <<< (c - 5)) - 1)) (c - 5)
      (charToken (lut idx) :: rest.1, rest.2)
    else ([], acc, c)

/-- B32.PUSH's groups: the byte goes below the pending bits, then the loop runs (R73). Three turns are enough for every
value the 3-bit CNT can hold; two for the values that occur (R22). -/
def B32e.groups (u : B32e) (b : Byte) : List Token × BitVec 12 × Nat :=
  takeGroups 3 ((u.p.setWidth 12 <<< 8) ||| b.setWidth 12) (u.cnt.toNat + 8)

/-- What is pending after B32.PUSH: `P <- acc[3:0]`, `CNT <- c` (R73). -/
def B32e.shiftIn (u : B32e) (b : Byte) : B32e :=
  { p := (u.groups b).2.1.extractLsb' 0 4, cnt := BitVec.ofNat 3 (u.groups b).2.2 }

/-- B32.END's last character, if bits are pending: they become the index's high bits, zeros below (R74, conflict C2). -/
def B32e.flush (u : B32e) : List Token :=
  if 0 < u.cnt.toNat then [charToken (lut (u.p.setWidth 5 <<< (5 - u.cnt.toNat)))] else []

/-! The host's transactions (R86, R103, R104, R110). -/

/-- RegRead (R86): DT_RESULT with bit 31 read as 0 (R26), STATUS (R25), B32_ACC (R27), and 0 at the reserved address (R28). -/
def regRead (a : RegAddr) (s : State) : Reg :=
  match a with
  | 0#2 => (s.dtu.result.extractLsb' 0 31).setWidth 32
  | 1#2 => statusReg s
  | 2#2 => s.b32.p.setWidth 32
  | _ => 0

/-- REG.READ: the answer joins the host's history; the block's state and k are unchanged (R43, R86). -/
def hostRead (a : RegAddr) (s : State) : State := { s with reads := s.reads ++ [(a, regRead a s)] }

/-- RST: every state item takes its reset value; k, OUT and the host's side stay (R103, R104). -/
def hostReset (s : State) : State :=
  { s with dtu := Dtu.reset, b32 := B32e.reset, errcode := ErrorCode.none.code }

/-- The host takes one token, if one is left (R10; log 3). -/
def hostConsume (s : State) : State :=
  { s with consumed := if s.consumed < s.out.length then s.consumed + 1 else s.consumed }

/-- The tokens emitted and not yet taken by the host: what an output buffer would hold (R110). -/
def State.waiting (s : State) : List Token := s.out.drop s.consumed

/-- Whether a command that leads from `s` to `t` would overflow an output buffer of the given depth (R110). DESIGN CHOICE
(log 20): R110 names no smallest depth, and the model admits every one, so at depth 0 a command that emits, and at depth 1 one
that emits two tokens, is held for ever even if the host drains. -/
def overflows (depth : Option Nat) (s t : State) : Bool :=
  match depth with
  | none => false
  | some d => s.out.length < t.out.length && d < t.waiting.length

/-- The command `w` is held: it stays first on the port and nothing of it happens. Meanwhile the host may drain: its next
consumption, if it has one pending, is served (R110; log 4). -/
def hold (w : Word) (s : State) : State :=
  if .consume ∈ s.port then (hostConsume s).setPort (.command w :: s.port.erase .consume)
  else s.setPort (.command w :: s.port)

end Sys2Proof.Machine
end

