-- ==== Sys2Proof/Machine/Base32.lean ====
section
/-! DEFINITION. The B32E's commands: B32.PUSH, B32.END (R73, R74). They write no DTU state and no flag (R83). -/

namespace Sys2Proof.Machine

/-- B32.PUSH b (R73). -/
def execB32Push (b : Byte) (s : State) : Result :=
  done ((s.setB32 (s.b32.shiftIn b)).emit (s.b32.groups b).1)

/-- B32.END (R74). -/
def execB32End (s : State) : Result :=
  done ((s.setB32 B32e.reset).emit (s.b32.flush ++ [eofToken]))

end Sys2Proof.Machine
end

