-- ==== Sys2Proof/Machine/System.lean ====
section
/-! DEFINITION. The system commands: NOP, ERR.ACK (R84, R85). -/

namespace Sys2Proof.Machine

/-- NOP (R84): only the command index advances. -/
def execNop (s : State) : Result := done s

/-- ERR.ACK (R85). -/
def execErrAck (s : State) : Result := done (acknowledge s)

end Sys2Proof.Machine
end

