-- ==== Sys2Proof/Machine/Truncation.lean ====
section
/-! DEFINITION. The DTU's commands: DT.CLR, DT.PUSH, DT.EXEC (R63 to R65). -/

namespace Sys2Proof.Machine

/-- DT.CLR (R63). -/
def execDtClr (s : State) : Result := done (s.setDtu s.dtu.restart.dropResult)

/-- DT.PUSH b (R64). -/
def execDtPush (b : Byte) (s : State) : Result := done (s.setDtu (s.dtu.store b).dropResult)

/-- DT.EXEC (R65): the digest is kept on both paths; the failing path raises INVALID_INPUT (R93). -/
def execDtExec (s : State) : Result :=
  if windowFits s.dtu then done (s.setDtu (s.dtu.giveResult (windowValue s.dtu)))
  else done (raiseError .invalidInput (s.setDtu s.dtu.failResult))

end Sys2Proof.Machine
end

