-- ==== Sys2Proof/Machine/Dispatch.lean ====
section
/-! DEFINITION. One arm per command (R52), each a call of its meaning. -/

namespace Sys2Proof.Machine

def exec (i : Instr) (s : State) : Host.Outcome State Fault Refusal :=
  match i with
  | .nop => Sys2Proof.Machine.execNop s
  | .dtClr => Sys2Proof.Machine.execDtClr s
  | .dtPush b => Sys2Proof.Machine.execDtPush b s
  | .dtExec => Sys2Proof.Machine.execDtExec s
  | .b32Push b => Sys2Proof.Machine.execB32Push b s
  | .b32End => Sys2Proof.Machine.execB32End s
  | .errAck => Sys2Proof.Machine.execErrAck s

end Sys2Proof.Machine
end

