-- ==== Sys2Proof/Machine/Port.lean ====
section
/-! DEFINITION. The command port: one word presented, decoded and executed as one atomic step (R42, R48, R90), or held by a
full output buffer where the depth is finite (R110). -/

namespace Sys2Proof.Machine

/-- Execute one word: a command has its meaning, an illegal word raises ILLEGAL_COMMAND (R54, R90, R94). -/
def runWord (w : Word) (s : State) : Result :=
  match decode w with
  | .cmd i => exec i s
  | .illegal _ _ => illegalWord s

/-- Present the word `w` to a block whose output buffer has the given depth; `s` is the state with the word already off
the port. A command that would overflow the buffer is held, and none of its effect happens (R110). -/
def present (depth : Option Nat) (w : Word) (s : State) : Result :=
  match runWord w s with
  | .next t => if overflows depth s t then .next (hold w s) else .next t
  | .fault f => .fault f
  | .refused r => .refused r

/-- The host's oldest pending action, carried out; with none pending the block is idle and nothing changes (R45, R102). -/
def serve (depth : Option Nat) (s : State) : Result :=
  match s.port with
  | [] => .next s
  | .command w :: rest => present depth w (s.setPort rest)
  | .read a :: rest => .next (hostRead a (s.setPort rest))
  | .reset :: rest => .next (hostReset (s.setPort rest))
  | .consume :: rest => .next (hostConsume (s.setPort rest))

/-- The host presents the word `w` next, before what it had pending (log 14). -/
def presentNext (w : Word) (s : State) : State := s.setPort (.command w :: s.port)

end Sys2Proof.Machine
end

