-- ==== Sys2Proof/Machine/Step.lean ====
section
/-! DEFINITION. One step of the model: the host's oldest pending action (R10, R45). -/

namespace Sys2Proof.Machine

/-- The step of a block whose output buffer has the given depth, `none` for unbounded (OUT_DEPTH, R5, R110). -/
def stepWith (depth : Option Nat) (s : State) : Host.Outcome State Fault Refusal := serve depth s

/-- The step of the model: OUT_DEPTH as Config names it, unbounded. -/
def step (s : State) : Host.Outcome State Fault Refusal := stepWith Config.outDepth s

/-- `s` with the table word `w` presented as the host's next action, so that the next step executes it. -/
def State.withFetchWord (s : State) (nbits w : Nat) : State := presentNext (tableWord nbits w) s

end Sys2Proof.Machine
end

