-- ==== Sys2Proof/Machine/Assembler.lean ====
section
/-! DEFINITION. The spec's assembler syntax (R56) and its pseudo-commands (R57), on lists of characters. The block never
sees any of it: what comes out is command words. What R56 leaves open in a line (white space, numeral spelling) is log 12, in a
text with a refused line log 21. -/

namespace Sys2Proof.Machine

/-- Why the assembler refuses a line (R56, R57, I13); the reasons' names are the model's (log 21). -/
inductive AsmError where
  /-- The mnemonic is none of R52's, no pseudo-command and no directive. -/
  | unknownMnemonic
  /-- A command that takes no operand has one. -/
  | unexpectedOperand
  /-- An operand is missing, is no numeral or is out of range. -/
  | badOperand
  /-- DT.LOADHEX's string has an odd number of digits, a non-hex digit or no quotes. -/
  | badHexString
  deriving DecidableEq, Repr

/-- What the assembler makes of a line or a text. -/
inductive Assembled where
  | words (ws : List Word)
  /-- Refused, naming a line, counted from 1 (I13, log 21). -/
  | refused (line : Nat) (why : AsmError)
  deriving DecidableEq, Repr

/-! The pseudo-commands' expansions (R57). -/

/-- DT.LOAD b0, ..., bn-1. -/
def expandLoad (bs : List Byte) : List Instr := .dtClr :: bs.map .dtPush

/-- DT.TRUNC b0, ..., bn-1. -/
def expandTrunc (bs : List Byte) : List Instr := expandLoad bs ++ [.dtExec]

/-- B32.FRAME b0, ..., bn-1; with no byte it is B32.END alone. -/
def expandFrame (bs : List Byte) : List Instr := bs.map .b32Push ++ [.b32End]

/-! Characters and numerals. -/

def isBlank (c : Char) : Bool := c == ' ' || c == '\t' || c == '\r'

def trimBlanks (cs : List Char) : List Char := ((cs.dropWhile isBlank).reverse.dropWhile isBlank).reverse

/-- Split a list at every occurrence of a separator. -/
def splitAtChar (sep : Char) : List Char → List (List Char)
  | [] => [[]]
  | c :: cs =>
    match splitAtChar sep cs with
    | [] => [[c]]
    | f :: fs => if c == sep then [] :: f :: fs else (c :: f) :: fs

/-- The value of a hexadecimal digit of either case. -/
def hexDigit (c : Char) : Option Nat :=
  if '0' ≤ c ∧ c ≤ '9' then some (c.toNat - 48)
  else if 'A' ≤ c ∧ c ≤ 'F' then some (c.toNat - 55)
  else if 'a' ≤ c ∧ c ≤ 'f' then some (c.toNat - 87)
  else none

/-- The value of a decimal digit. -/
def decDigit (c : Char) : Option Nat := if '0' ≤ c ∧ c ≤ '9' then some (c.toNat - 48) else none

/-- Digits read onto a value so far. -/
def digitsFrom (base : Nat) (digit : Char → Option Nat) (v : Nat) : List Char → Option Nat
  | [] => some v
  | c :: cs => match digit c with
    | some d => digitsFrom base digit (v * base + d) cs
    | none => none

/-- A numeral: `0x` and hexadecimal digits, or decimal digits; at least one digit (R56). -/
def numeral : List Char → Option Nat
  | '0' :: 'x' :: c :: cs => digitsFrom 16 hexDigit 0 (c :: cs)
  | c :: cs => digitsFrom 10 decDigit 0 (c :: cs)
  | [] => none

/-- A byte operand: 0..255 (R56). -/
def byteOperand (cs : List Char) : Option Byte :=
  match numeral (trimBlanks cs) with
  | some n => if n ≤ 255 then some (BitVec.ofNat 8 n) else none
  | none => none

/-- All of a list of optional values, or none. -/
def allSome : List (Option Byte) → Option (List Byte)
  | [] => some []
  | none :: _ => none
  | some b :: bs => (allSome bs).map (b :: ·)

/-- The operands of a pseudo-command: bytes separated by commas, none if nothing stands there (R57). -/
def byteOperands (cs : List Char) : Option (List Byte) :=
  match cs with
  | [] => some []
  | _ => allSome ((splitAtChar ',' cs).map byteOperand)

/-- Two hexadecimal digits a byte, the first pair byte 0 (R57). -/
def hexPairs : List Char → Option (List Byte)
  | [] => some []
  | [_] => none
  | h :: l :: cs =>
    match hexDigit h, hexDigit l with
    | some x, some y => (hexPairs cs).map (BitVec.ofNat 8 (16 * x + y) :: ·)
    | _, _ => none

/-- A double-quoted string of hexadecimal pairs (R57). -/
def hexString : List Char → Option (List Byte)
  | '"' :: cs => match cs.reverse with
    | '"' :: ds => hexPairs ds.reverse
    | _ => none
  | _ => none

/-- The word of the `.word 0xHHHH` directive: four hexadecimal digits (R56). -/
def wordLiteral : List Char → Option Word
  | ['0', 'x', a, b, c, d] => (digitsFrom 16 hexDigit 0 [a, b, c, d]).map (BitVec.ofNat 16)
  | _ => none

/-! Lines (R56, R57). -/

/-- The commands that take no operand. -/
def bareCommand (m : List Char) : Option Instr :=
  if m = "NOP".toList then some .nop
  else if m = "DT.CLR".toList then some .dtClr
  else if m = "DT.EXEC".toList then some .dtExec
  else if m = "B32.END".toList then some .b32End
  else if m = "ERR.ACK".toList then some .errAck
  else none

/-- The commands that take one byte. -/
def byteCommand (m : List Char) : Option (Byte → Instr) :=
  if m = "DT.PUSH".toList then some .dtPush
  else if m = "B32.PUSH".toList then some .b32Push
  else none

/-- The pseudo-commands that take a list of bytes. -/
def listCommand (m : List Char) : Option (List Byte → List Instr) :=
  if m = "DT.LOAD".toList then some expandLoad
  else if m = "DT.TRUNC".toList then some expandTrunc
  else if m = "B32.FRAME".toList then some expandFrame
  else none

/-- One statement: a mnemonic and what stands after it, both without outer blanks. -/
def assembleStatement (line : Nat) (m ops : List Char) : Assembled :=
  match bareCommand m with
  | some i => if ops = [] then .words [encode i] else .refused line .unexpectedOperand
  | none => match byteCommand m with
    | some f => match byteOperand ops with
      | some b => .words [encode (f b)]
      | none => .refused line .badOperand
    | none => match listCommand m with
      | some f => match byteOperands ops with
        | some bs => .words ((f bs).map encode)
        | none => .refused line .badOperand
      | none =>
        if m = "DT.LOADHEX".toList then match hexString ops with
          | some bs => .words ((expandLoad bs).map encode)
          | none => .refused line .badHexString
        else if m = ".word".toList then match wordLiteral ops with
          | some w => .words [w]
          | none => .refused line .badOperand
        else .refused line .unknownMnemonic

/-- One line: everything from `;` on is comment; an empty line emits nothing (R56). -/
def assembleLine (line : Nat) (cs : List Char) : Assembled :=
  let code := trimBlanks (cs.takeWhile (· != ';'))
  let m := code.takeWhile (fun c => !isBlank c)
  if m = [] then .words [] else assembleStatement line m (trimBlanks (code.drop m.length))

/-- Lines in order, numbered from `line` on. DESIGN CHOICE (log 21): R56 says only that a refused line emits no word and I13 that
it is named; here a refused line refuses the whole text, no line's words are emitted, and the first refused line is the one
named. -/
def assembleLines (line : Nat) : List (List Char) → Assembled
  | [] => .words []
  | l :: ls => match assembleLine line l, assembleLines (line + 1) ls with
    | .refused n why, _ => .refused n why
    | .words _, .refused n why => .refused n why
    | .words ws, .words vs => .words (ws ++ vs)

/-- A text, one command per line (R56); log 21 where a line is refused. -/
def assemble (text : List Char) : Assembled := assembleLines 1 (splitAtChar '\n' text)

end Sys2Proof.Machine
end

