-- ==== Sys2Proof/Machine/Functions.lean ====
section
/-! DEFINITION. The two functions the block realises, as the source gives them: `truncate` (R58 to R61) and `encode`
(R71), on byte lists and unbounded naturals, and the bit string of R37. No command calls them: they are what the commands
are measured against (R66, R77). -/

namespace Sys2Proof.Machine

/-- `truncate(D)`, `none` for INVALID_INPUT (R58). -/
def truncate (D : List Byte) : Option Nat :=
  match D.getLast? with
  | none => none
  | some last =>
    let o := last.toNat &&& 0x0F
    if h : o + 4 ≤ D.length then
      some (((D[o].toNat &&& 0x7F) <<< 24) ||| (D[o + 1].toNat <<< 16) ||| (D[o + 2].toNat <<< 8) ||| D[o + 3].toNat)
    else none

/-- R71 step 3: while 5 bits are pending, take the top 5, look them up, mask the rest. The first argument bounds the
turns. Answers the characters, the accumulator and the count. -/
def encodeGroups : Nat → Nat → Nat → List Byte × Nat × Nat
  | 0, acc, cnt => ([], acc, cnt)
  | n + 1, acc, cnt =>
    if 5 ≤ cnt then
      let rest := encodeGroups n (acc &&& (1 <<< (cnt - 5) - 1)) (cnt - 5)
      (lut (BitVec.ofNat 5 ((acc >>> (cnt - 5)) &&& 0x1F)) :: rest.1, rest.2)
    else ([], acc, cnt)

/-- R71 steps 2 to 4 from a given accumulator and count. -/
def encodeFrom (acc cnt : Nat) : List Byte → List Byte
  | [] => if 0 < cnt then [lut (BitVec.ofNat 5 ((acc <<< (5 - cnt)) &&& 0x1F))] else []
  | b :: F =>
    let r := encodeGroups (cnt + 8) ((acc <<< 8) ||| b.toNat) (cnt + 8)
    r.1 ++ encodeFrom r.2.1 r.2.2 F

/-- `encode(F)`: the character codes of the Base32 text, unpadded (R71). -/
def encode32 (F : List Byte) : List Byte := encodeFrom 0 0 F

/-- The 32 character codes in the table's order, written out (R70). -/
def alphabet : List Byte :=
  [0x41, 0x42, 0x43, 0x44, 0x45, 0x46, 0x47, 0x48, 0x49, 0x4A, 0x4B, 0x4C, 0x4D] ++
  [0x4E, 0x4F, 0x50, 0x51, 0x52, 0x53, 0x54, 0x55, 0x56, 0x57, 0x58, 0x59, 0x5A] ++
  [0x32, 0x33, 0x34, 0x35, 0x36, 0x37]

/-- A byte's bits, bit 7 first (R37). -/
def byteBits (b : Byte) : List Bool :=
  [b.getLsbD 7, b.getLsbD 6, b.getLsbD 5, b.getLsbD 4, b.getLsbD 3, b.getLsbD 2, b.getLsbD 1, b.getLsbD 0]

/-- A frame's bit string: the bytes in push order (R37). -/
def frameBits (F : List Byte) : List Bool := F.flatMap byteBits

/-- The index of a 5-bit group, the first bit its bit 4 (R37). -/
def groupIndex (a b c d e : Bool) : BitVec 5 :=
  BitVec.ofBool a ++ BitVec.ofBool b ++ BitVec.ofBool c ++ BitVec.ofBool d ++ BitVec.ofBool e

/-- Consecutive 5-bit groups from the start of a bit string, the last one filled with low zeros (R37, R71 step 4). -/
def cutGroups : List Bool → List (BitVec 5)
  | a :: b :: c :: d :: e :: rest => groupIndex a b c d e :: cutGroups rest
  | [a, b, c, d] => [groupIndex a b c d false]
  | [a, b, c] => [groupIndex a b c false false]
  | [a, b] => [groupIndex a b false false false]
  | [a] => [groupIndex a false false false false]
  | [] => []

/-- A bit string's value as a number, its first bit the most significant (R23). -/
def bitsValue (bits : List Bool) : Nat := bits.foldl (fun v b => 2 * v + b.toNat) 0

end Sys2Proof.Machine
end

