-- ==== Sys2Proof/Safety.lean ====
section
/-! DEFINITION. The terms the claims use: the invariant of a reachable state, what it is for a state to hold a digest or a
frame (R17, R23), and what a history of host actions should leave behind (R17, R23, R72, R77, R104). -/

namespace Sys2Proof.Safety

open Sys2Proof.Machine

/-- The tokens that occur: `0x032..0x037`, `0x041..0x05A` and `0x100` (R55). -/
def legalToken (t : Token) : Prop :=
  t = 0x100 ∨ (0x32 ≤ t ∧ t ≤ 0x37) ∨ (0x41 ≤ t ∧ t ≤ 0x5A)

/-- What holds of the state between any two commands. -/
structure BlockInv (s : State) : Prop where
  /-- LEN is in 0..19 (R14). -/
  lenRange : s.dtu.len.toNat ≤ 19
  /-- Bit 31 of DT_RESULT is 0 (R18). -/
  resultRange : s.dtu.result.toNat < 2 ^ 31
  /-- `DT_RVALID = 0` implies `DT_RESULT = 0` (R19). -/
  noStaleResult : s.dtu.rvalid = false → s.dtu.result = 0
  /-- DT_RVALID and DT_INVALID are never both 1 (R19). -/
  flagsExclusive : ¬ (s.dtu.rvalid = true ∧ s.dtu.invalid = true)
  /-- A valid result is the truncation of what the DTU holds (R19). -/
  validIsCurrent : s.dtu.rvalid = true → windowFits s.dtu = true ∧ s.dtu.result = (windowValue s.dtu).setWidth 32
  /-- A recorded failure is the failure of what the DTU holds (R20). -/
  invalidIsCurrent : s.dtu.invalid = true → windowFits s.dtu = false
  /-- CNT is in 0..4 (R22, R76). -/
  cntRange : s.b32.cnt.toNat ≤ 4
  /-- `P < 2^CNT` (R21, R76). -/
  pendingMasked : s.b32.p.toNat < 2 ^ s.b32.cnt.toNat
  /-- ERRCODE is 0, 1 or 2 (R92). -/
  errcodeRange : s.errcode.toNat ≤ 2
  /-- Only the tokens of R55 are ever emitted (R55, R79, R82). -/
  tokensLegal : ∀ t ∈ s.out, legalToken t
  /-- The host has taken no token that was not emitted (log 3). -/
  consumedBound : s.consumed ≤ s.out.length

/-- The DTU holds the digest `D` (R17): LEN, W below LEN, and LAST. -/
structure HoldsDigest (D : List Byte) (s : State) : Prop where
  len : s.dtu.len.toNat = min D.length 19
  window : ∀ i : Fin 19, i.val < s.dtu.len.toNat → D[i.val]? = some s.dtu.w[i]
  last : D ≠ [] → D.getLast? = some s.dtu.last

/-- The B32E holds the open frame `F` (R23): CNT, and P as the last CNT bits of F's bit string. -/
structure HoldsFrame (F : List Byte) (s : State) : Prop where
  cnt : s.b32.cnt.toNat = (8 * F.length) % 5
  pending : s.b32.p.toNat = bitsValue ((frameBits F).drop (8 * F.length - s.b32.cnt.toNat))

/-- The digest after a command (R9: the bytes pushed since the last DT.CLR or reset). -/
def digestAfterCmd (D : List Byte) : Instr → List Byte
  | .dtClr => []
  | .dtPush b => D ++ [b]
  | .nop | .dtExec | .b32Push _ | .b32End | .errAck => D

/-- The open frame after a command (R72: the bytes pushed since the last B32.END or reset). -/
def frameAfterCmd (F : List Byte) : Instr → List Byte
  | .b32End => []
  | .b32Push b => F ++ [b]
  | .nop | .dtClr | .dtPush _ | .dtExec | .errAck => F

/-- The tokens an open frame has emitted so far: its `floor(8*m/5)` complete groups (R23). -/
def openTokens (F : List Byte) : List Token :=
  ((encode32 F).take (8 * F.length / 5)).map charToken

/-- The tokens of a whole frame: `encode(F)` and one EOF (R77). -/
def frameTokens (F : List Byte) : List Token := (encode32 F).map charToken ++ [eofToken]

/-- What the last DT.EXEC on the current digest left (R19, R20). -/
inductive ExecOutcome where
  /-- No DT.EXEC since the last DT.CLR, DT.PUSH or reset. -/
  | nothing
  /-- It raised INVALID_INPUT. -/
  | failed
  /-- It gave this value. -/
  | value (v : Nat)
  deriving DecidableEq, Repr

/-- What a history of host actions has made of the block, in terms of the two functions alone. -/
structure History where
  /-- The current digest (R9). -/
  digest : List Byte
  /-- What stands in DT_RESULT, DT_RVALID and DT_INVALID. -/
  outcome : ExecOutcome
  /-- The first error since the last ERR.ACK or reset (R24). -/
  error : ErrorCode
  /-- The open frame (R72). -/
  frame : List Byte
  /-- The tokens of the frames that are over, ended or abandoned. -/
  closed : List Token
  /-- How many command words have been presented (R29). -/
  commands : Nat
  /-- The answers of the register reads (R86). -/
  answers : List (RegAddr × Nat)

/-- The history at the model's start. -/
def History.start : History :=
  { digest := [], outcome := .nothing, error := .none, frame := [], closed := [], commands := 0, answers := [] }

/-- The whole output stream of a history. -/
def History.tokens (h : History) : List Token := h.closed ++ openTokens h.frame

/-- DT_RESULT as a history gives it (R26). -/
def ExecOutcome.result : ExecOutcome → Nat
  | .value v => v
  | .nothing | .failed => 0

/-- DT_RVALID (R19). -/
def ExecOutcome.valid : ExecOutcome → Bool
  | .value _ => true
  | .nothing | .failed => false

/-- DT_INVALID (R20). -/
def ExecOutcome.invalid : ExecOutcome → Bool
  | .failed => true
  | .nothing | .value _ => false

/-- The readable registers as numbers, field by field at the bit positions of R25 to R28. -/
def History.view (h : History) : RegAddr → Nat
  | 0#2 => h.outcome.result
  | 1#2 => min h.digest.length 19 + h.outcome.valid.toNat * 2 ^ 5 + h.outcome.invalid.toNat * 2 ^ 6 +
      8 * h.frame.length % 5 * 2 ^ 8 + h.error.code.toNat * 2 ^ 12
  | 2#2 => bitsValue ((frameBits h.frame).drop (8 * h.frame.length / 5 * 5))
  | _ => 0

/-- An error joins a history: the first one stays (R24). -/
def History.raise (h : History) (e : ErrorCode) : History := if h.error = .none then { h with error := e } else h

/-- A history and one more command (R63 to R65, R73, R74, R84, R85). -/
def History.afterCmd (h : History) : Instr → History
  | .nop => h
  | .dtClr => { h with digest := [], outcome := .nothing }
  | .dtPush b => { h with digest := h.digest ++ [b], outcome := .nothing }
  | .dtExec => match truncate h.digest with
    | some v => { h with outcome := .value v }
    | none => { h with outcome := .failed }.raise .invalidInput
  | .b32Push b => { h with frame := h.frame ++ [b] }
  | .b32End => { h with frame := [], closed := h.closed ++ frameTokens h.frame }
  | .errAck => { h with error := .none }

/-- A history and one more host action: a command word or an illegal word (R94), RST (R104), a register read (R86), a
consumption, which changes nothing the block shows. -/
def History.after (h : History) : HostAction → History
  | .command w =>
    let h' := { h with commands := h.commands + 1 }
    match decode w with
    | .cmd i => h'.afterCmd i
    | .illegal _ _ => h'.raise .illegalCommand
  | .reset => { h with digest := [], outcome := .nothing, error := .none, frame := [], closed := h.tokens }
  | .read a => { h with answers := h.answers ++ [(a, h.view a)] }
  | .consume => h

/-- The state agrees with a history in every item the block holds or has shown. -/
structure Agrees (h : History) (s : State) : Prop where
  digest : HoldsDigest h.digest s
  result : s.dtu.result.toNat = h.outcome.result
  rvalid : s.dtu.rvalid = h.outcome.valid
  invalid : s.dtu.invalid = h.outcome.invalid
  /-- What stands in the result is `truncate` of the current digest (R19). -/
  valueIsCurrent : ∀ v, h.outcome = .value v → truncate h.digest = some v
  /-- What stands as a failure is the failure of the current digest (R20). -/
  failureIsCurrent : h.outcome = .failed → truncate h.digest = none
  error : s.errcode = h.error.code
  frame : HoldsFrame h.frame s
  out : s.out = h.tokens
  index : s.k = h.commands
  answers : s.reads.map (fun r => (r.1, r.2.toNat)) = h.answers

/-- Whether a host action leaves the digest alone: no DT.PUSH, no DT.CLR and no reset (R67). -/
def keepsDigest (a : HostAction) : Prop :=
  a ≠ .reset ∧ ∀ w, a = .command w → decode w ≠ .cmd .dtClr ∧ ∀ b, decode w ≠ .cmd (.dtPush b)

/-- Two hexadecimal digits and the byte they spell, the first digit the upper half (R56, R57). -/
inductive HexPair : List Char → Byte → Prop where
  | digits {h l : Char} {x y : Nat} {b : Byte} : hexDigit h = some x → hexDigit l = some y → b.toNat = 16 * x + y →
      HexPair [h, l] b

/-- A byte operand as R56 writes it: in decimal, or in hex with two digits. -/
inductive ByteText : List Char → Byte → Prop where
  | decimal (b : Byte) : ByteText (Nat.toDigits 10 b.toNat) b
  | hex {cs : List Char} {b : Byte} : HexPair cs b → ByteText ('0' :: 'x' :: cs) b

/-- The host's side that no command touches: its pending actions, the read answers, the tokens taken (R32, R43). -/
def SameHostSide (s t : State) : Prop := t.port = s.port ∧ t.reads = s.reads ∧ t.consumed = s.consumed

/-- Commands executed one after another, stopping at a fault or a refusal. -/
def execAll : List Instr → State → Host.Outcome State Fault Refusal
  | [], s => .next s
  | i :: is, s => match exec i s with
    | .next t => execAll is t
    | .fault f => .fault f
    | .refused r => .refused r

/-- `n` steps of a block with the given output depth. -/
def runWith (depth : Option Nat) : Nat → State → Host.Outcome State Fault Refusal
  | 0, s => .next s
  | n + 1, s => match stepWith depth s with
    | .next t => runWith depth n t
    | .fault f => .fault f
    | .refused r => .refused r

end Sys2Proof.Safety
end

