-- ==== Sys2Proof/Certificates/Slice0/Obligations.lean ====
section
/-! DEFINITION. The statements about the model, for the provers. Each docstring names the rule it formalises; none is
about a particular program. A statement whose conclusion is `exec i s = .next ...` says where the command completes, what
it writes, and by the record equality everything it leaves unchanged. -/

open Sys2Proof Sys2Proof.Machine Sys2Proof.Safety

/-! ### Encoding -/

/-- R52 to R54: words written out from the table of R52 and the vectors of `95_test_vectors.md` L2.3. -/
def Obligations.TableWordsDecode : Prop :=
  decode 0x0000 = .cmd .nop ∧ decode 0x1000 = .cmd .dtClr ∧ decode 0x20CC = .cmd (.dtPush 0xCC) ∧
  decode 0x3000 = .cmd .dtExec ∧ decode 0x4066 = .cmd (.b32Push 0x66) ∧ decode 0x5000 = .cmd .b32End ∧
  decode 0x6000 = .cmd .errAck ∧ decode 0x0001 = .illegal 0x0001 .unusedOperand ∧
  decode 0x2F00 = .illegal 0x2F00 .reservedBits ∧ decode 0x7000 = .illegal 0x7000 .reservedOpcode

/-- R52, R54: the decoder and the encoder are inverse, for every command at every operand: a command's word decodes to that
command, and a command is read from that word only, so no bit of a word is dropped and none is ignored. -/
def Obligations.DecodeInvertsEncode : Prop :=
  (∀ i : Instr, decode (encode i) = .cmd i) ∧ (∀ (w : Word) (i : Instr), decode w = .cmd i → w = encode i)

/-- R52, the whole table: what each row's words decode to, that a word matching no row is illegal, that no word matches
two rows, and that exactly 5 + 2*256 words are legal. -/
def Obligations.OpcodeTableDecides : Prop :=
  (∀ w : Word, w &&& 0xFFFF = 0x0000 → decode w = .cmd .nop) ∧
  (∀ w : Word, w &&& 0xFFFF = 0x1000 → decode w = .cmd .dtClr) ∧
  (∀ w : Word, w &&& 0xFF00 = 0x2000 → decode w = .cmd (.dtPush (w.setWidth 8))) ∧
  (∀ w : Word, w &&& 0xFFFF = 0x3000 → decode w = .cmd .dtExec) ∧
  (∀ w : Word, w &&& 0xFF00 = 0x4000 → decode w = .cmd (.b32Push (w.setWidth 8))) ∧
  (∀ w : Word, w &&& 0xFFFF = 0x5000 → decode w = .cmd .b32End) ∧
  (∀ w : Word, w &&& 0xFFFF = 0x6000 → decode w = .cmd .errAck) ∧
  (∀ w : Word, (∀ r ∈ opcodeTable, r.matches w = false) → ∃ why, decode w = .illegal w why) ∧
  (∀ w : Word, opcodeTable.Pairwise fun r q => ¬ (r.matches w = true ∧ q.matches w = true)) ∧
  (∃ ws : List Word, ws.Nodup ∧ ws.length = 5 + 2 * 256 ∧ ∀ w, w ∈ ws ↔ ∃ i, decode w = .cmd i)

/-- R53: the illegal words are those with OP 0x7..0xF, those with a nonzero RSV, and those of an operand-less command with
a nonzero IMM8; the three checks of `Word.legal` accept exactly the others. -/
def Obligations.IllegalWordsAreThree : Prop :=
  (∀ w : Word, (∃ why, decode w = .illegal w why) ↔
    7 ≤ w.toNat / 2 ^ 12 ∨
    (w.toNat / 2 ^ 12 ≤ 6 ∧ w.toNat / 2 ^ 8 % 2 ^ 4 ≠ 0) ∨
    (w.toNat / 2 ^ 12 ∈ [0, 1, 3, 5, 6] ∧ w.toNat / 2 ^ 8 % 2 ^ 4 = 0 ∧ w.toNat % 2 ^ 8 ≠ 0)) ∧
  (∀ w : Word, Word.legal w = true ↔ ∃ i, decode w = .cmd i)

/-! ### Steps, the host's actions and reset -/

/-- R42, R45: a presented word that decodes to `i` makes the step exactly the meaning of `i`, on the state with the word
off the port. (That the host's actions stand in a list of the state is the model's choice, log 1.) -/
def Obligations.StepRunsTheDecodedCommand : Prop :=
  ∀ (s : State) (w : Word) (i : Instr) (rest : List HostAction),
    s.port = .command w :: rest → decode w = .cmd i → step s = exec i { s with port := rest }

/-- R94: a presented word that decodes to `Illegal` writes ERRCODE if it was 0, and nothing else but the index (R29). -/
def Obligations.IllegalWordOnlyRecordsTheError : Prop :=
  ∀ (s : State) (w v : Word) (why : IllegalReason) (rest : List HostAction),
    s.port = .command w :: rest → decode w = .illegal v why →
    step s = .next { s with port := rest, k := s.k + 1, errcode := if s.errcode = 0 then 2 else s.errcode }

/-- R87, R102, R97: whatever the host does, and whatever the state, the step answers a next state: no error traps, nothing
is privileged, no word and no address stops the block. -/
def Obligations.EveryStepAnswersANextState : Prop := ∀ s : State, ∃ t, step s = .next t

/-- With no action pending, the step answers the same state. The model's reading of R102's idle block (log 5, DEDUCED). -/
def Obligations.IdleChangesNothing : Prop := ∀ s : State, s.port = [] → step s = .next s

/-- R103, R104, R33: RST gives every state item its reset value, leaves the host's side and k alone, and leaves the DTU
with the empty digest and the B32E at a frame boundary. -/
def Obligations.ResetGivesEveryItemItsValue : Prop :=
  ∀ (s : State) (rest : List HostAction), s.port = .reset :: rest →
    ∃ t, step s = .next t ∧
      t.dtu.len = 0 ∧ t.dtu.last = 0 ∧ (∀ i : Fin 19, t.dtu.w[i] = 0) ∧ t.dtu.result = 0 ∧ t.dtu.rvalid = false ∧
      t.dtu.invalid = false ∧ t.b32.p = 0 ∧ t.b32.cnt = 0 ∧ t.errcode = 0 ∧
      t.k = s.k ∧ t.out = s.out ∧ t.port = rest ∧ t.reads = s.reads ∧ t.consumed = s.consumed ∧
      HoldsDigest [] t ∧ HoldsFrame [] t ∧
      t.dtu = State.reset.dtu ∧ t.b32 = State.reset.b32 ∧ t.errcode = State.reset.errcode

/-- R106: nothing needs initialising. The first command after reset may be any command; a DT.EXEC then raises
INVALID_INPUT, a B32.END then emits EOF alone. -/
def Obligations.NothingNeedsInitialising : Prop :=
  (∀ i, ∃ t, exec i State.reset = .next t) ∧
  (∃ t, exec .dtExec State.reset = .next t ∧ t.errcode = 1 ∧ t.dtu.invalid = true ∧ t.dtu.rvalid = false ∧ t.dtu.result = 0) ∧
  (∃ t, exec .b32End State.reset = .next t ∧ t.out = [0x100])

/-- R29: every command word, legal or not, advances k by exactly 1, and nothing else the host does changes it. -/
def Obligations.CommandIndexCountsCommands : Prop :=
  ∀ s t : State, step s = .next t →
    ((∃ w rest, s.port = .command w :: rest) → t.k = s.k + 1) ∧
    ((∀ w rest, s.port ≠ .command w :: rest) → t.k = s.k)

/-- R32: whatever the output depth, a step only appends to the output stream. -/
def Obligations.OutputStreamOnlyGrows : Prop :=
  ∀ (depth : Option Nat) (s t : State), stepWith depth s = .next t → s.out <+: t.out

/-- R86, R43: a register read answers the register's value at that point of the order and changes nothing else. (That the
answers are kept in a list of the state is the model's choice, log 2.) -/
def Obligations.RegisterReadOnlyAnswers : Prop :=
  ∀ (s : State) (a : RegAddr) (rest : List HostAction), s.port = .read a :: rest →
    step s = .next { s with port := rest, reads := s.reads ++ [(a, regRead a s)] }

/-! ### Readable registers -/

/-- R25: STATUS field by field, every reserved bit 0, all of it 0 after reset. -/
def Obligations.StatusRegisterLayout : Prop :=
  ∀ s : State,
    (regRead 1 s).extractLsb' 0 5 = s.dtu.len ∧ (regRead 1 s).getLsbD 5 = s.dtu.rvalid ∧
    (regRead 1 s).getLsbD 6 = s.dtu.invalid ∧ (regRead 1 s).getLsbD 7 = false ∧
    (regRead 1 s).extractLsb' 8 3 = s.b32.cnt ∧ (regRead 1 s).getLsbD 11 = false ∧
    (regRead 1 s).extractLsb' 12 4 = s.errcode ∧ (regRead 1 s).extractLsb' 16 16 = 0 ∧
    regRead 1 State.reset = 0

/-- R26, R27, R28: DT_RESULT reads its bits 30..0 with bit 31 at 0, B32_ACC reads P with the bits above at 0, and the
reserved address reads 0. -/
def Obligations.OtherRegisterLayouts : Prop :=
  ∀ s : State,
    (regRead 0 s).extractLsb' 0 31 = s.dtu.result.extractLsb' 0 31 ∧ (regRead 0 s).getLsbD 31 = false ∧
    (regRead 2 s).extractLsb' 0 4 = s.b32.p ∧ (regRead 2 s).extractLsb' 4 28 = 0 ∧ regRead 3 s = 0

/-- R86, R107: in a state that meets the invariant, a DT_RESULT that is not valid reads 0, and B32_ACC reads 0 when nothing
is pending and has no bit at or above CNT. -/
def Obligations.RegistersReadZeroWithoutAValue : Prop :=
  ∀ s : State, BlockInv s →
    (s.dtu.rvalid = false → regRead 0 s = 0) ∧ regRead 0 s = s.dtu.result ∧
    (s.b32.cnt = 0 → regRead 2 s = 0) ∧ (regRead 2 s).toNat < 2 ^ s.b32.cnt.toNat

/-! ### The commands: effect, frame and completion -/

/-- R84: NOP, from every state, only advances k; its one word is 0x0000, and the other words with OP 0x0 are illegal. -/
def Obligations.NopOnlyAdvancesTheIndex : Prop :=
  (∀ s : State, exec .nop s = .next { s with k := s.k + 1 }) ∧ decode 0x0000 = .cmd .nop ∧
  (∀ w : Word, w.extractLsb' 12 4 = 0 → w ≠ 0 → ∃ why, decode w = .illegal w why)

/-- R63: DT.CLR, from every state. W, LAST, ERRCODE, the B32E and the output stream are not written. -/
def Obligations.ClearStartsAnEmptyDigest : Prop :=
  (∀ s : State, exec .dtClr s = .next
    { s with dtu := { s.dtu with len := 0, result := 0, rvalid := false, invalid := false }, k := s.k + 1 }) ∧
  decode 0x1000 = .cmd .dtClr

/-- R64: DT.PUSH b, from every state: below 19 bytes it stores the byte and counts it, at 19 it only replaces LAST; the
result and its flags are cleared; nothing else is written. -/
def Obligations.PushAppendsOneByte : Prop :=
  (∀ (s : State) (b : Byte), ∃ t, exec (.dtPush b) s = .next t ∧
    (s.dtu.len.toNat < 19 → t.dtu.len.toNat = s.dtu.len.toNat + 1 ∧
      ∀ j : Fin 19, t.dtu.w[j] = if j.val = s.dtu.len.toNat then b else s.dtu.w[j]) ∧
    (19 ≤ s.dtu.len.toNat → t.dtu.len = s.dtu.len ∧ t.dtu.w = s.dtu.w) ∧
    t.dtu.last = b ∧ t.dtu.result = 0 ∧ t.dtu.rvalid = false ∧ t.dtu.invalid = false ∧
    t.b32 = s.b32 ∧ t.errcode = s.errcode ∧ t.out = s.out ∧ t.k = s.k + 1 ∧ SameHostSide s t) ∧
  (∀ b : Byte, decode (0x2000 ||| b.setWidth 16) = .cmd (.dtPush b))

/-- R65 (with R59 to R61): DT.EXEC, from every state. With `o` the low 4 bits of LAST: if LEN is not 0 and the window fits,
it writes the 31-bit big-endian value of the window, the first byte masked with 0x7F; else it clears the result, sets
DT_INVALID and records code 1 unless an error stands. LEN, LAST and W are kept, and nothing else is written. -/
def Obligations.ExecTruncatesOrFails : Prop :=
  (∀ (s : State) (o : Nat) (ho : o < 16), o = s.dtu.last.toNat % 16 → s.dtu.len ≠ 0 → o + 4 ≤ s.dtu.len.toNat →
    exec .dtExec s = .next { s with
      k := s.k + 1
      dtu := { s.dtu with
        rvalid := true
        invalid := false
        result := BitVec.ofNat 32 (((s.dtu.w[o].toNat &&& 0x7F) <<< 24) ||| (s.dtu.w[o + 1].toNat <<< 16) |||
          (s.dtu.w[o + 2].toNat <<< 8) ||| s.dtu.w[o + 3].toNat) } }) ∧
  (∀ s : State, s.dtu.len = 0 ∨ s.dtu.len.toNat < s.dtu.last.toNat % 16 + 4 →
    exec .dtExec s = .next { s with
      k := s.k + 1
      errcode := if s.errcode = 0 then 1 else s.errcode
      dtu := { s.dtu with result := 0, rvalid := false, invalid := true } }) ∧
  decode 0x3000 = .cmd .dtExec

/-- R73: B32.PUSH b, from every state, with `V = P*256 + b` and `c = CNT + 8`: it emits the character of each complete
5-bit group of the low `c` bits of `V`, the topmost first, keeps the remaining `c mod 5` bits, and writes nothing else. -/
def Obligations.PushEmitsEveryCompleteGroup : Prop :=
  (∀ (s : State) (b : Byte), exec (.b32Push b) s = .next { s with
    k := s.k + 1,
    b32 := { p := BitVec.ofNat 4 ((s.b32.p.toNat * 256 + b.toNat) % 2 ^ ((s.b32.cnt.toNat + 8) % 5)),
             cnt := BitVec.ofNat 3 ((s.b32.cnt.toNat + 8) % 5) },
    out := s.out ++ (List.range ((s.b32.cnt.toNat + 8) / 5)).map fun j =>
      charToken (lut (BitVec.ofNat 5
        ((s.b32.p.toNat * 256 + b.toNat) / 2 ^ (s.b32.cnt.toNat + 8 - 5 * (j + 1))))) }) ∧
  (∀ b : Byte, decode (0x4000 ||| b.setWidth 16) = .cmd (.b32Push b))

/-- R74: B32.END, with CNT in its range 0..4 (R22): the pending bits become the high bits of a last index with zeros below;
then EOF; P and CNT are cleared and nothing else is written. With nothing pending it emits EOF alone. -/
def Obligations.EndFlushesAndClosesTheFrame : Prop :=
  (∀ s : State, s.b32.cnt = 0 → exec .b32End s = .next
    { s with k := s.k + 1, b32 := { p := 0, cnt := 0 }, out := s.out ++ [0x100] }) ∧
  (∀ s : State, 0 < s.b32.cnt.toNat → s.b32.cnt.toNat ≤ 4 → exec .b32End s = .next
    { s with
      k := s.k + 1
      b32 := { p := 0, cnt := 0 }
      out := s.out ++ [charToken (lut (BitVec.ofNat 5 (s.b32.p.toNat * 2 ^ (5 - s.b32.cnt.toNat)))), 0x100] }) ∧
  decode 0x5000 = .cmd .b32End

/-- R85: ERR.ACK, from every state, clears ERRCODE and writes nothing else. -/
def Obligations.AcknowledgeClearsTheError : Prop :=
  (∀ s : State, exec .errAck s = .next { s with errcode := 0, k := s.k + 1 }) ∧ decode 0x6000 = .cmd .errAck

/-- The frame every command shares (R30, R43, R68): the host's pending actions, the read answers and the tokens taken stay;
k advances by 1; only DT.EXEC and ERR.ACK may write ERRCODE, only the DTU's commands the DTU, only the B32E's commands P,
CNT and the output stream; and it holds for every command from every state, which completes. -/
def Obligations.EveryCommandKeepsWhatItDoesNotWrite : Prop :=
  ∀ (i : Instr) (s : State), ∃ t, exec i s = .next t ∧ t.k = s.k + 1 ∧ SameHostSide s t ∧
    (i ≠ .dtExec → i ≠ .errAck → t.errcode = s.errcode) ∧
    (i ≠ .dtClr → i ≠ .dtExec → (∀ b, i ≠ .dtPush b) → t.dtu = s.dtu) ∧
    (i ≠ .b32End → (∀ b, i ≠ .b32Push b) → t.b32 = s.b32 ∧ t.out = s.out) ∧
    ((∀ b, i ≠ .dtPush b) → t.dtu.w = s.dtu.w ∧ t.dtu.last = s.dtu.last ∧ (i ≠ .dtClr → t.dtu.len = s.dtu.len))

/-! ### Errors -/

/-- R24: an error is recorded only when none stands: DT.EXEC's failure as code 1, an illegal word as code 2; ERR.ACK and
reset set ERRCODE to 0; no other command writes it. -/
def Obligations.FirstErrorIsKept : Prop :=
  (∀ (s : State) (rest : List HostAction), s.port = .reset :: rest → ∃ t, step s = .next t ∧ t.errcode = 0) ∧
  ∀ (w : Word) (s t : State), runWord w s = .next t →
    t.errcode = match decode w with
      | .cmd .errAck => 0
      | .cmd .dtExec =>
        if s.errcode = 0 ∧ (s.dtu.len = 0 ∨ s.dtu.len.toNat < s.dtu.last.toNat % 16 + 4) then 1 else s.errcode
      | .illegal _ _ => if s.errcode = 0 then 2 else s.errcode
      | _ => s.errcode

/-- R93: INVALID_INPUT is raised by DT.EXEC and only by it, exactly when the current digest `D` is empty or shorter than
its own window needs; and then no value is left (R95). -/
def Obligations.OnlyExecRaisesInvalidInput : Prop :=
  ∀ (w : Word) (D : List Byte) (s t : State), HoldsDigest D s → s.errcode = 0 → runWord w s = .next t →
    (t.errcode = 1 ↔ decode w = .cmd .dtExec ∧
      (D = [] ∨ ∃ last, D.getLast? = some last ∧ D.length < last.toNat % 16 + 4)) ∧
    (t.errcode = 1 → t.dtu.invalid = true ∧ t.dtu.rvalid = false ∧ t.dtu.result = 0)

/-! ### The truncation function and the DTU -/

/-- R62: a truncation lies in 0..2^31-1; it is 0 for the windows 00 00 00 00 and 80 00 00 00, and 2^31-1 for 7F FF FF FF and
FF FF FF FF. -/
def Obligations.TruncationRange : Prop :=
  (∀ D v, truncate D = some v → v ≤ 2 ^ 31 - 1) ∧
  (∀ (D : List Byte) (last b0 b1 b2 b3 : Byte), D.getLast? = some last →
    D[last.toNat % 16]? = some b0 → D[last.toNat % 16 + 1]? = some b1 → D[last.toNat % 16 + 2]? = some b2 →
    D[last.toNat % 16 + 3]? = some b3 →
    ((b0 = 0x00 ∨ b0 = 0x80) → b1 = 0 → b2 = 0 → b3 = 0 → truncate D = some 0) ∧
    ((b0 = 0x7F ∨ b0 = 0xFF) → b1 = 0xFF → b2 = 0xFF → b3 = 0xFF → truncate D = some (2 ^ 31 - 1)))

/-- R61: the result's bytes: bits 30..24 are the first window byte's low 7 bits, then the other three bytes, big-endian. -/
def Obligations.TruncationComposesBigEndian : Prop :=
  ∀ (D : List Byte) (v : Nat), truncate D = some v →
    ∃ last b0 b1 b2 b3, D.getLast? = some last ∧ D[last.toNat % 16]? = some b0 ∧ D[last.toNat % 16 + 1]? = some b1 ∧
      D[last.toNat % 16 + 2]? = some b2 ∧ D[last.toNat % 16 + 3]? = some b3 ∧
      v / 2 ^ 31 = 0 ∧ v / 2 ^ 24 % 2 ^ 7 = b0.toNat % 2 ^ 7 ∧ v / 2 ^ 16 % 2 ^ 8 = b1.toNat ∧
      v / 2 ^ 8 % 2 ^ 8 = b2.toNat ∧ v % 2 ^ 8 = b3.toNat

/-- R69: which digests fail, by their length. -/
def Obligations.FailureSetByLength : Prop :=
  truncate [] = none ∧
  (∀ D, 1 ≤ D.length → D.length ≤ 3 → truncate D = none) ∧
  (∀ D last, 4 ≤ D.length → D.length ≤ 18 → D.getLast? = some last →
    (truncate D = none ↔ D.length - 3 ≤ last.toNat % 16)) ∧
  (∀ D, 19 ≤ D.length → truncate D ≠ none)

/-- R17: whatever the length of the digest, a command leaves the DTU holding the digest the rules say: DT.CLR the empty
one, DT.PUSH one byte more, every other command the same; an illegal word too (R94). -/
def Obligations.DigestStoreFollowsThePushes : Prop :=
  (∀ (D : List Byte) (i : Instr) (s : State), HoldsDigest D s →
    ∃ t, exec i s = .next t ∧ HoldsDigest (digestAfterCmd D i) t) ∧
  (∀ (D : List Byte) (w v : Word) (why : IllegalReason) (s : State), HoldsDigest D s → decode w = .illegal v why →
    ∃ t, runWord w s = .next t ∧ HoldsDigest D t) ∧
  (∀ s t : State, (∃ rest, s.port = .reset :: rest) → step s = .next t → HoldsDigest [] t)

/-- R66: after DT.EXEC the registers hold `truncate(D)` of the digest pushed so far, for digests of every length. -/
def Obligations.ExecComputesTruncate : Prop :=
  ∀ (D : List Byte) (s : State), HoldsDigest D s → ∃ t, exec .dtExec s = .next t ∧
    (∀ v, truncate D = some v → t.dtu.result.toNat = v ∧ t.dtu.rvalid = true ∧ t.dtu.invalid = false) ∧
    (truncate D = none → t.dtu.result = 0 ∧ t.dtu.rvalid = false ∧ t.dtu.invalid = true ∧
      t.errcode = if s.errcode = 0 then 1 else s.errcode)

/-- R57, R66: the commands that DT.TRUNC stands for, run from any state whatever, compute `truncate` of its bytes, and leave
the encoder, the output stream and the host's side alone. -/
def Obligations.LoadedDigestIsTruncated : Prop :=
  ∀ (D : List Byte) (s : State), ∃ t, execAll (expandTrunc D) s = .next t ∧
    (∀ v, truncate D = some v → t.dtu.result.toNat = v ∧ t.dtu.rvalid = true ∧ t.dtu.invalid = false ∧
      t.errcode = s.errcode) ∧
    (truncate D = none → t.dtu.result = 0 ∧ t.dtu.rvalid = false ∧ t.dtu.invalid = true ∧
      t.errcode = if s.errcode = 0 then 1 else s.errcode) ∧
    t.b32 = s.b32 ∧ t.out = s.out ∧ t.k = s.k + D.length + 2 ∧ SameHostSide s t

/-- R67: two DT.EXECs with anything between them but DT.PUSH, DT.CLR and reset write the same result and flags, and DT.EXEC
writes none of LEN, LAST and W. -/
def Obligations.RepeatedExecGivesTheSame : Prop :=
  ∀ (s : State) (acts rest : List HostAction), (∀ a ∈ acts, keepsDigest a) →
    s.port = .command 0x3000 :: (acts ++ .command 0x3000 :: rest) →
    ∃ t u, core.run 1 s = .next t ∧ core.run (acts.length + 2) s = .next u ∧
      u.dtu.result = t.dtu.result ∧ u.dtu.rvalid = t.dtu.rvalid ∧ u.dtu.invalid = t.dtu.invalid ∧
      u.dtu.len = s.dtu.len ∧ u.dtu.last = s.dtu.last ∧ u.dtu.w = s.dtu.w

/-! ### The encoding function and the B32E -/

/-- R70: the table, entry by entry, and its formula. -/
def Obligations.LookupTableEntries : Prop :=
  alphabet.length = 32 ∧ ∀ i : BitVec 5, alphabet[i.toNat]? = some (lut i) ∧
    (lut i).toNat = if i.toNat ≤ 25 then 0x41 + i.toNat else 0x18 + i.toNat

/-- R37: `encode` cuts the frame's bit string into 5-bit groups from its start, first bit most significant; R71 step 4: the
last group is filled with low zeros. -/
def Obligations.EncodeCutsTheBitString : Prop :=
  ∀ F : List Byte, encode32 F = (cutGroups (frameBits F)).map lut

/-- R78: a frame of `m` bytes yields `ceil(8m/5)` characters, by `m mod 5`; `floor(8m/5)` of them come from its pushes and
one more, with the EOF, from its B32.END unless `8m mod 5 = 0`. -/
def Obligations.EncodedLength : Prop :=
  (∀ (F : List Byte) (s : State), s.b32.p = 0 → s.b32.cnt = 0 →
    ∃ t u, execAll (F.map .b32Push) s = .next t ∧ t.out.length = s.out.length + 8 * F.length / 5 ∧
      exec .b32End t = .next u ∧
      u.out.length = t.out.length + (if 8 * F.length % 5 ≠ 0 then 1 else 0) + 1) ∧
  ∀ F : List Byte, (encode32 F).length = (8 * F.length + 4) / 5 ∧
    (∀ k, F.length = 5 * k → (encode32 F).length = 8 * k) ∧
    (∀ k, F.length = 5 * k + 1 → (encode32 F).length = 8 * k + 2) ∧
    (∀ k, F.length = 5 * k + 2 → (encode32 F).length = 8 * k + 4) ∧
    (∀ k, F.length = 5 * k + 3 → (encode32 F).length = 8 * k + 5) ∧
    (∀ k, F.length = 5 * k + 4 → (encode32 F).length = 8 * k + 7)

/-- R79, R82: every token a step emits is EOF or carries one of the 32 codes of R70; `=` is none of them; and `encode` gives
no other code. -/
def Obligations.OnlyAlphabetCharactersAreEmitted : Prop :=
  (∀ s t : State, step s = .next t →
    ∀ tok ∈ t.out.drop s.out.length, tok = 0x100 ∨ ∃ c ∈ alphabet, tok = charToken c) ∧
  (∀ F, ∀ c ∈ encode32 F, c ∈ alphabet) ∧ (0x3D : Byte) ∉ alphabet

/-- R80: the encoding is injective, on frames of all lengths. -/
def Obligations.EncodeIsInjective : Prop := ∀ F G : List Byte, encode32 F = encode32 G → F = G

/-- R75: how many tokens a B32.PUSH and a B32.END emit and what CNT becomes, for each CNT that occurs. -/
def Obligations.TokensPerCommandByCount : Prop :=
  (∀ (s : State) (b : Byte), ∃ t, exec (.b32Push b) s = .next t ∧
    (s.b32.cnt = 0 → t.out.length = s.out.length + 1 ∧ t.b32.cnt = 3) ∧
    (s.b32.cnt = 1 → t.out.length = s.out.length + 1 ∧ t.b32.cnt = 4) ∧
    (s.b32.cnt = 2 → t.out.length = s.out.length + 2 ∧ t.b32.cnt = 0) ∧
    (s.b32.cnt = 3 → t.out.length = s.out.length + 2 ∧ t.b32.cnt = 1) ∧
    (s.b32.cnt = 4 → t.out.length = s.out.length + 2 ∧ t.b32.cnt = 2)) ∧
  (∀ s : State, ∃ t, exec .b32End s = .next t ∧
    (s.b32.cnt = 0 → t.out = s.out ++ [0x100]) ∧
    (s.b32.cnt ≠ 0 → ∃ c ∈ alphabet, t.out = s.out ++ [charToken c, 0x100]))

/-- R23: an open frame's B32E holds the last `(8m) mod 5` bits of its bit string, and has emitted the first
`floor(8m/5)` characters of `encode`; B32.PUSH extends the frame, B32.END leaves the empty frame, every other command
keeps it and emits nothing. -/
def Obligations.PendingBitsFollowTheFrame : Prop :=
  ∀ (F : List Byte) (i : Instr) (s : State) (before : List Token), HoldsFrame F s → s.out = before ++ openTokens F →
    ∃ t, exec i s = .next t ∧ HoldsFrame (frameAfterCmd F i) t ∧
      (i ≠ .b32End → t.out = before ++ openTokens (frameAfterCmd F i)) ∧
      (i = .b32End → t.out = before ++ frameTokens F) ∧
      (openTokens F).length = 8 * F.length / 5 ∧ (s.b32.cnt = 0 → s.b32.p = 0)

/-- R77, R57: the commands that B32.FRAME stands for, run from any state at a frame boundary, emit exactly `encode` of its
bytes and one EOF, return the B32E to its reset value, and leave the DTU and ERRCODE alone. -/
def Obligations.FrameIsEncoded : Prop :=
  ∀ (F : List Byte) (s : State), s.b32.p = 0 → s.b32.cnt = 0 → ∃ t, execAll (expandFrame F) s = .next t ∧
    t.out = s.out ++ (encode32 F).map charToken ++ [0x100] ∧ t.b32.p = 0 ∧ t.b32.cnt = 0 ∧
    t.dtu = s.dtu ∧ t.errcode = s.errcode ∧ t.k = s.k + F.length + 1 ∧ SameHostSide s t

/-- R81: a B32.END at a boundary emits EOF alone, and `encode` of the empty input is empty. -/
def Obligations.EmptyFrameIsEofAlone : Prop :=
  encode32 [] = [] ∧ ∀ s : State, s.b32.p = 0 → s.b32.cnt = 0 →
    ∃ t, exec .b32End s = .next t ∧ t.out = s.out ++ [0x100]

/-! ### Whole-machine rules -/

/-- R68: the units are independent. What a word does to the DTU depends on the DTU alone, what it does to the B32E and what
it emits depends on the B32E alone; DTU commands write no B32E state and emit nothing; B32E commands write no DTU state and
no ERRCODE. -/
def Obligations.UnitsAreIndependent : Prop :=
  (∀ (w : Word) (s s' t t' : State), runWord w s = .next t → runWord w s' = .next t' →
    (s.dtu = s'.dtu → t.dtu = t'.dtu) ∧
    (s.b32 = s'.b32 → t.b32 = t'.b32 ∧ t.out.drop s.out.length = t'.out.drop s'.out.length)) ∧
  (∀ (i : Instr) (s : State), i = .dtClr ∨ i = .dtExec ∨ (∃ b, i = .dtPush b) →
    ∃ t, exec i s = .next t ∧ t.b32 = s.b32 ∧ t.out = s.out) ∧
  (∀ (i : Instr) (s : State), i = .b32End ∨ (∃ b, i = .b32Push b) →
    ∃ t, exec i s = .next t ∧ t.dtu = s.dtu ∧ t.errcode = s.errcode)

/-- The invariant holds at reset (R33 with R14, R18, R19, R20, R21, R22, R55, R92). -/
def Obligations.InvariantAtReset : Prop := BlockInv State.reset

/-- Every step keeps the invariant, at every output depth: LEN and CNT in range, P masked, DT_RESULT below 2^31, no stale
result, flags exclusive and current, ERRCODE in 0..2, only legal tokens. -/
def Obligations.EveryStepKeepsTheInvariant : Prop :=
  ∀ (depth : Option Nat) (s t : State), BlockInv s → stepWith depth s = .next t → BlockInv t

/-- The model's start agrees with the empty history. -/
def Obligations.StartAgreesWithTheEmptyHistory : Prop := Agrees .start State.reset

/-- One host action keeps the agreement of state and history: what the block holds, shows and has emitted is what `truncate`
and `encode` of the history say (R17, R19, R20, R23, R24, R66, R77, R86, R94, R104). -/
def Obligations.EveryStepFollowsTheHistory : Prop :=
  ∀ (h : History) (s : State) (a : HostAction) (rest : List HostAction), Agrees h s → s.port = a :: rest →
    ∃ t, step s = .next t ∧ t.port = rest ∧ Agrees (h.after a) t

/-- R113: a run of any finite stream of host actions, from the model's start, takes one step an action and ends with the
registers, the output stream and every state item as the stream's history says. -/
def Obligations.RunRefinesTheTwoFunctions : Prop :=
  ∀ acts : List HostAction, ∃ t, core.run acts.length { State.reset with port := acts } = .next t ∧ t.port = [] ∧
    Agrees (acts.foldl History.after .start) t ∧
    ∀ a, (regRead a t).toNat = (acts.foldl History.after .start).view a

/-- R110: with an output buffer of depth `d`, a command that would overflow it is held: it stays first on the port and no
state item is written and no token emitted, dropped or reordered; any other command has its effect; and the buffer never
holds more than `d` tokens. (What the host may do meanwhile is log 4; that `d` may be 0 or 1 is log 20.) -/
def Obligations.FullBufferHoldsTheCommand : Prop :=
  ∀ (d : Nat) (s : State) (w : Word) (rest : List HostAction), s.port = .command w :: rest →
    ∃ t u, step s = .next u ∧ stepWith (some d) s = .next t ∧
      (s.out.length < u.out.length → d < u.waiting.length →
        (∃ rest', t.port = .command w :: rest') ∧ t.dtu = s.dtu ∧ t.b32 = s.b32 ∧ t.errcode = s.errcode ∧ t.k = s.k ∧
        t.out = s.out ∧ t.reads = s.reads) ∧
      (u.out.length ≤ s.out.length ∨ u.waiting.length ≤ d → t = u) ∧
      (s.waiting.length ≤ d → t.waiting.length ≤ d)

/-- R110: holds change no result. When a block with a finite buffer has carried out a whole stream, the block's state, its
output stream and its read answers are those of the unbounded block. (What the host may do while a command is held is the
model's choice, log 4; so is admitting every depth `d`, log 20.) -/
def Obligations.HoldsChangeNoResult : Prop :=
  ∀ (d n : Nat) (s t : State), runWith (some d) n s = .next t → t.port = [] →
    ∃ u, core.run s.port.length s = .next u ∧ t.dtu = u.dtu ∧ t.b32 = u.b32 ∧ t.errcode = u.errcode ∧ t.k = u.k ∧
      t.out = u.out ∧ t.reads = u.reads

/-! ### The assembler -/

/-- R56 on sample lines, written out but for two hex digits: each command with no operand, the two pushes with every operand of
two hex digits, three refused lines (NOP with an operand, an operand out of range, an unknown mnemonic) and one .word line
(spelling: log 12; the reasons' names: log 21). -/
def Obligations.CommandSampleLines : Prop :=
  (∀ n, assembleLine n "NOP".toList = .words [0x0000] ∧ assembleLine n "DT.CLR".toList = .words [0x1000] ∧
    assembleLine n "DT.EXEC".toList = .words [0x3000] ∧ assembleLine n "B32.END".toList = .words [0x5000] ∧
    assembleLine n "ERR.ACK".toList = .words [0x6000]) ∧
  (∀ n h l x y, hexDigit h = some x → hexDigit l = some y →
    assembleLine n ("DT.PUSH 0x".toList ++ [h, l]) = .words [0x2000 + BitVec.ofNat 16 (16 * x + y)] ∧
    assembleLine n ("B32.PUSH 0x".toList ++ [h, l]) = .words [0x4000 + BitVec.ofNat 16 (16 * x + y)]) ∧
  (∀ n, assembleLine n "NOP 0".toList = .refused n .unexpectedOperand ∧
    assembleLine n "DT.PUSH 256".toList = .refused n .badOperand ∧
    assembleLine n "DT.PULL 1".toList = .refused n .unknownMnemonic ∧
    assembleLine n ".word 0x7000 ; illegal".toList = .words [0x7000])

/-- R57 on seven sample lines, written out: DT.LOAD with no byte and with two, DT.TRUNC of one byte, DT.LOADHEX of two bytes
and of an odd number of digits, B32.FRAME with no byte and with two (spelling: log 12). -/
def Obligations.PseudoCommandSampleLines : Prop :=
  ∀ n, assembleLine n "DT.LOAD".toList = .words [0x1000] ∧
    assembleLine n "DT.LOAD 1, 0x02".toList = .words [0x1000, 0x2001, 0x2002] ∧
    assembleLine n "DT.TRUNC 255".toList = .words [0x1000, 0x20FF, 0x3000] ∧
    assembleLine n "DT.LOADHEX \"cc93\"".toList = .words [0x1000, 0x20CC, 0x2093] ∧
    assembleLine n "DT.LOADHEX \"cc9\"".toList = .refused n .badHexString ∧
    assembleLine n "B32.FRAME".toList = .words [0x5000] ∧
    assembleLine n "B32.FRAME 0x66, 0x6F".toList = .words [0x4066, 0x406F, 0x5000]

/-- R57, for every list of bytes, the empty one too, each byte written in decimal or in hex as R56 writes it: the lines of the
four pseudo-commands assemble to the words of their expansions; a DT.LOADHEX string with an odd number of digits or a
character that is no hex digit is refused. (Digits of either case and the blank after a comma are log 12; a `;` starts a
comment wherever it stands, so the refused string has none.) -/
def Obligations.PseudoCommandsExpandForEveryByteList : Prop :=
  (∀ n texts bs, List.Forall₂ ByteText texts bs →
    assembleLine n ("DT.LOAD ".toList ++ [',', ' '].intercalate texts) =
      .words (0x1000 :: bs.map (fun b => 0x20#8 ++ b)) ∧
    assembleLine n ("DT.TRUNC ".toList ++ [',', ' '].intercalate texts) =
      .words (0x1000 :: bs.map (fun b => 0x20#8 ++ b) ++ [0x3000]) ∧
    assembleLine n ("B32.FRAME ".toList ++ [',', ' '].intercalate texts) =
      .words (bs.map (fun b => 0x40#8 ++ b) ++ [0x5000])) ∧
  (∀ n pairs bs, List.Forall₂ HexPair pairs bs →
    assembleLine n ("DT.LOADHEX \"".toList ++ pairs.flatten ++ ['"']) =
      .words (0x1000 :: bs.map (fun b => 0x20#8 ++ b))) ∧
  (∀ n cs, ';' ∉ cs → (cs.length % 2 = 1 ∨ ∃ c ∈ cs, hexDigit c = none) →
    assembleLine n ("DT.LOADHEX \"".toList ++ cs ++ ['"']) = .refused n .badHexString)

/-- R56, for every operand, word and refused line. A byte in decimal or in hex is the push's operand; `.word` and four hex digits
emit that word; `;` and what follows it count for nothing; a number above 255, an operand on a command that takes none, and a
mnemonic that is none of R52's, R57's or `.word` are refused. (Spelling: log 12; the reasons' names: log 21.) -/
def Obligations.CommandLinesAssembleOrAreRefused : Prop :=
  (∀ n t b, ByteText t b →
    assembleLine n ("DT.PUSH ".toList ++ t) = .words [0x20#8 ++ b] ∧
    assembleLine n ("B32.PUSH ".toList ++ t) = .words [0x40#8 ++ b]) ∧
  (∀ n p q hi lo, HexPair p hi → HexPair q lo →
    assembleLine n (".word 0x".toList ++ p ++ q) = .words [hi ++ lo]) ∧
  (∀ n line comment, ';' ∉ line → assembleLine n (line ++ ';' :: comment) = assembleLine n line) ∧
  (∀ n v, 255 < v → ∀ m ∈ ["DT.PUSH", "B32.PUSH"], ∀ t ∈ [Nat.toDigits 10 v, '0' :: 'x' :: Nat.toDigits 16 v],
    assembleLine n (m.toList ++ ' ' :: t) = .refused n .badOperand) ∧
  (∀ n ops, ';' ∉ ops → (∃ c ∈ ops, isBlank c = false) →
    ∀ m ∈ ["NOP", "DT.CLR", "DT.EXEC", "B32.END", "ERR.ACK"],
      assembleLine n (m.toList ++ ' ' :: ops) = .refused n .unexpectedOperand) ∧
  (∀ n m ops, m ≠ [] → (∀ c ∈ m, c ≠ ';' ∧ isBlank c = false) →
    (∀ known ∈ opcodeTable.map (·.mnemonic) ++ ["DT.LOAD", "DT.TRUNC", "DT.LOADHEX", "B32.FRAME", ".word"],
      m ≠ known.toList) →
    assembleLine n (m ++ ' ' :: ops) = .refused n .unknownMnemonic)

/-- R56, one command per line: a text whose lines all assemble gives their words in order. Where a line is refused the text is
refused with the number of the first such line, counted from 1, and no words: the model's choice, log 21. -/
def Obligations.TextAssemblesLineByLine : Prop :=
  (∀ lines wss, lines ≠ [] → (∀ l ∈ lines, '\n' ∉ l) →
    List.Forall₂ (fun l ws => ∀ n, assembleLine n l = .words ws) lines wss →
    assemble (['\n'].intercalate lines) = .words wss.flatten) ∧
  (∀ good bad rest why, (∀ l ∈ good ++ bad :: rest, '\n' ∉ l) →
    (∀ l ∈ good, ∃ ws, ∀ n, assembleLine n l = .words ws) → (∀ n, assembleLine n bad = .refused n why) →
    assemble (['\n'].intercalate (good ++ bad :: rest)) = .refused (good.length + 1) why)
end

