-- ==== Sys2Proof/Laws/Bits.lean ====
section
/-! SUPPORT. Bit strings as lists: a number's low bits, most significant first, and how 5-bit groups are cut from them. -/

namespace Sys2Proof.Machine

/-- The low `c` bits of `a`, bit `c-1` first. -/
def natBits : Nat → Nat → List Bool
  | 0, _ => []
  | c + 1, a => a.testBit c :: natBits c a

@[simp] theorem natBits_length (c a : Nat) : (natBits c a).length = c := by
  induction c <;> simp [natBits, *]

theorem natBits_congr {c a b : Nat} (h : ∀ i < c, a.testBit i = b.testBit i) : natBits c a = natBits c b := by
  induction c with
  | zero => rfl
  | succ c ih => simp [natBits, h c (by omega), ih (fun i hi => h i (by omega))]

/-- A byte shifted in below `a` puts its bits after those of `a`. -/
theorem natBits_append_byte (c a : Nat) (b : Byte) :
    natBits (c + 8) ((a <<< 8) ||| b.toNat) = natBits c a ++ byteBits b := by
  induction c with
  | zero => simp [natBits, byteBits, Nat.testBit_or, Nat.testBit_shiftLeft, BitVec.getLsbD]
  | succ c ih =>
    have hb : b.toNat.testBit (c + 8) = false :=
      Nat.testBit_lt_two_pow (Nat.lt_of_lt_of_le b.isLt (Nat.pow_le_pow_right (by omega) (by omega)))
    rw [show c + 1 + 8 = (c + 8) + 1 by omega, natBits, ih]
    simp [natBits, Nat.testBit_or, Nat.testBit_shiftLeft, hb]

theorem groupIndex_getLsbD (x : BitVec 5) :
    groupIndex (x.getLsbD 4) (x.getLsbD 3) (x.getLsbD 2) (x.getLsbD 1) (x.getLsbD 0) = x := by
  revert x; decide

theorem groupIndex_testBits (x : Nat) :
    groupIndex (x.testBit 4) (x.testBit 3) (x.testBit 2) (x.testBit 1) (x.testBit 0) = BitVec.ofNat 5 x := by
  have := groupIndex_getLsbD (BitVec.ofNat 5 x)
  simpa only [BitVec.getLsbD_ofNat, Nat.reduceLT, decide_true, Bool.true_and] using this

/-- Five bits from position `k` up are the group with index `a >> k`. -/
theorem groupIndex_shift (a k : Nat) :
    groupIndex (a.testBit (k + 4)) (a.testBit (k + 3)) (a.testBit (k + 2)) (a.testBit (k + 1)) (a.testBit k) =
      BitVec.ofNat 5 (a >>> k) := by
  have := groupIndex_testBits (a >>> k)
  simpa only [Nat.testBit_shiftRight, Nat.add_zero, Nat.zero_add] using this

/-- Groups are cut from the start: a first part of whole groups is cut alone. -/
theorem cutGroups_append (k : Nat) (l r : List Bool) (h : l.length = 5 * k) :
    cutGroups (l ++ r) = cutGroups l ++ cutGroups r := by
  induction k generalizing l with
  | zero => simp [List.length_eq_zero_iff.mp h, cutGroups]
  | succ k ih =>
    match l, h with
    | a :: b :: c :: d :: e :: t, h => simp [cutGroups, ih t (by simp at h; omega)]

theorem cutGroups_length (l : List Bool) : (cutGroups l).length = (l.length + 4) / 5 := by
  induction l using cutGroups.induct with
  | case1 a b c d e rest ih => simp [cutGroups, ih]; omega
  | _ => simp [cutGroups]

@[simp] theorem byteBits_length (b : Byte) : (byteBits b).length = 8 := rfl

theorem frameBits_length (F : List Byte) : (frameBits F).length = 8 * F.length := by
  induction F with
  | nil => rfl
  | cons b F ih => simp [frameBits, List.flatMap_cons] at ih ⊢; omega

@[simp] theorem frameBits_append (F G : List Byte) : frameBits (F ++ G) = frameBits F ++ frameBits G := by
  simp [frameBits]

@[simp] theorem frameBits_singleton (b : Byte) : frameBits [b] = byteBits b := by simp [frameBits]

/-- The value of a bit string extended at its end. -/
theorem bitsValue_append_bit (l : List Bool) (b : Bool) : bitsValue (l ++ [b]) = 2 * bitsValue l + b.toNat := by
  simp [bitsValue]

theorem bitsValue_lt (l : List Bool) : bitsValue l < 2 ^ l.length := by
  induction l using List.reverseRecOn with
  | nil => simp [bitsValue]
  | append_singleton l b ih =>
    rw [bitsValue_append_bit, List.length_append, List.length_singleton, Nat.pow_succ]
    have := Bool.toNat_lt b; omega

theorem natBits_succ_right (c a : Nat) : natBits (c + 1) a = natBits c (a / 2) ++ [a.testBit 0] := by
  induction c with
  | zero => rfl
  | succ c ih => rw [natBits, ih, natBits, Nat.testBit_succ]; rfl

/-- A bit string is the bits of its value. -/
theorem natBits_bitsValue (l : List Bool) : natBits l.length (bitsValue l) = l := by
  induction l using List.reverseRecOn with
  | nil => rfl
  | append_singleton l b ih =>
    rw [List.length_append, List.length_singleton, natBits_succ_right, bitsValue_append_bit]
    have h2 : (2 * bitsValue l + b.toNat) / 2 = bitsValue l := by have := Bool.toNat_lt b; omega
    have hb : (2 * bitsValue l + b.toNat).testBit 0 = b := by
      cases b <;> simp [Nat.testBit_zero, Nat.add_mod]
    rw [h2, hb, ih]

theorem bitsValue_natBits (c a : Nat) : bitsValue (natBits c a) = a % 2 ^ c := by
  induction c generalizing a with
  | zero => simp [natBits, bitsValue, Nat.mod_one]
  | succ c ih =>
    rw [natBits_succ_right, bitsValue_append_bit, ih, Nat.pow_succ, Nat.mul_comm (2 ^ c) 2, Nat.mod_mul]
    have : (a.testBit 0).toNat = a % 2 := by
      rw [Nat.testBit_zero]; rcases Nat.mod_two_eq_zero_or_one a with h | h <;> simp [h]
    omega

end Sys2Proof.Machine
end

