-- ==== Sys2Proof/Laws/Encoding.lean ====
section
/-! SUPPORT. The fields of a packed word and of every command's word, and decoding by fields. -/

namespace Sys2Proof

@[simp] theorem opField_pack (op : BitVec 4) (b : Byte) : opField (packWord op b) = op := by
  apply BitVec.eq_of_getLsbD_eq; intro i hi
  simp only [opField, packWord, BitVec.getLsbD_extractLsb', BitVec.getLsbD_append]
  have : ¬ 12 + i < 8 := by omega
  have : ¬ 12 + i - 8 < 4 := by omega
  simp [*, show 12 + i - 8 - 4 = i by omega]

@[simp] theorem rsvField_pack (op : BitVec 4) (b : Byte) : rsvField (packWord op b) = 0 := by
  apply BitVec.eq_of_getLsbD_eq; intro i hi
  simp only [rsvField, packWord, BitVec.getLsbD_extractLsb', BitVec.getLsbD_append]
  have : ¬ 8 + i < 8 := by omega
  simp [*]

@[simp] theorem imm8Field_pack (op : BitVec 4) (b : Byte) : imm8Field (packWord op b) = b := by
  apply BitVec.eq_of_getLsbD_eq; intro i hi
  simp only [imm8Field, packWord, BitVec.getLsbD_extractLsb', BitVec.getLsbD_append]
  simp [*]

/-- A word with RSV 0000 is its other two fields packed. -/
theorem packWord_fields (w : Word) (h : rsvField w = 0) : packWord (opField w) (imm8Field w) = w := by
  have e : packWord (opField w) (imm8Field w) = opField w ++ rsvField w ++ imm8Field w := by rw [h]; rfl
  rw [e]
  apply BitVec.eq_of_getLsbD_eq; intro i hi
  simp only [opField, rsvField, imm8Field, BitVec.getLsbD_append, BitVec.getLsbD_extractLsb']
  by_cases h8 : i < 8
  · simp [h8]
  · by_cases h4 : i - 8 < 4
    · simp [h8, h4, show 8 + (i - 8) = i by omega]
    · simp [h8, h4, show 12 + (i - 8 - 4) = i by omega, show i - 8 - 4 < 4 by omega]

theorem decodeBare_eq_cmd {w : Word} {i j : Instr} : decodeBare w i = .cmd j ↔ imm8Field w = 0 ∧ i = j := by
  unfold decodeBare; split <;> simp_all

/-- What `decode` does on a packed word, by OP. -/
theorem decode_pack (op : BitVec 4) (b : Byte) :
    decode (packWord op b) = match op with
      | 0x0#4 => decodeBare (packWord op b) .nop
      | 0x1#4 => decodeBare (packWord op b) .dtClr
      | 0x2#4 => .cmd (.dtPush b)
      | 0x3#4 => decodeBare (packWord op b) .dtExec
      | 0x4#4 => .cmd (.b32Push b)
      | 0x5#4 => decodeBare (packWord op b) .b32End
      | 0x6#4 => decodeBare (packWord op b) .errAck
      | _ => .illegal (packWord op b) .reservedOpcode := by
  simp only [decode, rsvField_pack, opField_pack, imm8Field_pack, ne_eq, not_true_eq_false, if_false] <;> rfl

end Sys2Proof
end

