-- ==== Sys2Proof/Laws/State.lean ====
section
/-! SUPPORT. One lemma per field per state update, so that no later proof unfolds one. -/

namespace Sys2Proof.Machine

variable (s : State) (d : Dtu) (u : B32e) (c : BitVec 4) (acts : List HostAction) (ts : List Token)

@[simp] theorem State.setDtu_dtu : (s.setDtu d).dtu = d := rfl
@[simp] theorem State.setDtu_b32 : (s.setDtu d).b32 = s.b32 := rfl
@[simp] theorem State.setDtu_errcode : (s.setDtu d).errcode = s.errcode := rfl
@[simp] theorem State.setDtu_k : (s.setDtu d).k = s.k := rfl
@[simp] theorem State.setDtu_out : (s.setDtu d).out = s.out := rfl
@[simp] theorem State.setDtu_port : (s.setDtu d).port = s.port := rfl
@[simp] theorem State.setDtu_reads : (s.setDtu d).reads = s.reads := rfl
@[simp] theorem State.setDtu_consumed : (s.setDtu d).consumed = s.consumed := rfl

@[simp] theorem State.setB32_dtu : (s.setB32 u).dtu = s.dtu := rfl
@[simp] theorem State.setB32_b32 : (s.setB32 u).b32 = u := rfl
@[simp] theorem State.setB32_errcode : (s.setB32 u).errcode = s.errcode := rfl
@[simp] theorem State.setB32_k : (s.setB32 u).k = s.k := rfl
@[simp] theorem State.setB32_out : (s.setB32 u).out = s.out := rfl
@[simp] theorem State.setB32_port : (s.setB32 u).port = s.port := rfl
@[simp] theorem State.setB32_reads : (s.setB32 u).reads = s.reads := rfl
@[simp] theorem State.setB32_consumed : (s.setB32 u).consumed = s.consumed := rfl

@[simp] theorem State.setErrcode_dtu : (s.setErrcode c).dtu = s.dtu := rfl
@[simp] theorem State.setErrcode_b32 : (s.setErrcode c).b32 = s.b32 := rfl
@[simp] theorem State.setErrcode_errcode : (s.setErrcode c).errcode = c := rfl
@[simp] theorem State.setErrcode_k : (s.setErrcode c).k = s.k := rfl
@[simp] theorem State.setErrcode_out : (s.setErrcode c).out = s.out := rfl
@[simp] theorem State.setErrcode_port : (s.setErrcode c).port = s.port := rfl
@[simp] theorem State.setErrcode_reads : (s.setErrcode c).reads = s.reads := rfl
@[simp] theorem State.setErrcode_consumed : (s.setErrcode c).consumed = s.consumed := rfl

@[simp] theorem State.setPort_dtu : (s.setPort acts).dtu = s.dtu := rfl
@[simp] theorem State.setPort_b32 : (s.setPort acts).b32 = s.b32 := rfl
@[simp] theorem State.setPort_errcode : (s.setPort acts).errcode = s.errcode := rfl
@[simp] theorem State.setPort_k : (s.setPort acts).k = s.k := rfl
@[simp] theorem State.setPort_out : (s.setPort acts).out = s.out := rfl
@[simp] theorem State.setPort_port : (s.setPort acts).port = acts := rfl
@[simp] theorem State.setPort_reads : (s.setPort acts).reads = s.reads := rfl
@[simp] theorem State.setPort_consumed : (s.setPort acts).consumed = s.consumed := rfl

@[simp] theorem State.tick_dtu : (s.tick).dtu = s.dtu := rfl
@[simp] theorem State.tick_b32 : (s.tick).b32 = s.b32 := rfl
@[simp] theorem State.tick_errcode : (s.tick).errcode = s.errcode := rfl
@[simp] theorem State.tick_k : (s.tick).k = s.k + 1 := rfl
@[simp] theorem State.tick_out : (s.tick).out = s.out := rfl
@[simp] theorem State.tick_port : (s.tick).port = s.port := rfl
@[simp] theorem State.tick_reads : (s.tick).reads = s.reads := rfl
@[simp] theorem State.tick_consumed : (s.tick).consumed = s.consumed := rfl

@[simp] theorem State.emit_dtu : (s.emit ts).dtu = s.dtu := rfl
@[simp] theorem State.emit_b32 : (s.emit ts).b32 = s.b32 := rfl
@[simp] theorem State.emit_errcode : (s.emit ts).errcode = s.errcode := rfl
@[simp] theorem State.emit_k : (s.emit ts).k = s.k := rfl
@[simp] theorem State.emit_out : (s.emit ts).out = s.out ++ ts := rfl
@[simp] theorem State.emit_port : (s.emit ts).port = s.port := rfl
@[simp] theorem State.emit_reads : (s.emit ts).reads = s.reads := rfl
@[simp] theorem State.emit_consumed : (s.emit ts).consumed = s.consumed := rfl

@[simp] theorem raiseError_dtu (e : ErrorCode) : (raiseError e s).dtu = s.dtu := rfl
@[simp] theorem raiseError_b32 (e : ErrorCode) : (raiseError e s).b32 = s.b32 := rfl
@[simp] theorem raiseError_errcode (e : ErrorCode) : (raiseError e s).errcode = firstError s.errcode e := rfl
@[simp] theorem raiseError_k (e : ErrorCode) : (raiseError e s).k = s.k := rfl
@[simp] theorem raiseError_out (e : ErrorCode) : (raiseError e s).out = s.out := rfl
@[simp] theorem raiseError_port (e : ErrorCode) : (raiseError e s).port = s.port := rfl
@[simp] theorem raiseError_reads (e : ErrorCode) : (raiseError e s).reads = s.reads := rfl
@[simp] theorem raiseError_consumed (e : ErrorCode) : (raiseError e s).consumed = s.consumed := rfl

@[simp] theorem acknowledge_dtu : (acknowledge s).dtu = s.dtu := rfl
@[simp] theorem acknowledge_b32 : (acknowledge s).b32 = s.b32 := rfl
@[simp] theorem acknowledge_errcode : (acknowledge s).errcode = 0 := rfl
@[simp] theorem acknowledge_k : (acknowledge s).k = s.k := rfl
@[simp] theorem acknowledge_out : (acknowledge s).out = s.out := rfl
@[simp] theorem acknowledge_port : (acknowledge s).port = s.port := rfl
@[simp] theorem acknowledge_reads : (acknowledge s).reads = s.reads := rfl
@[simp] theorem acknowledge_consumed : (acknowledge s).consumed = s.consumed := rfl

@[simp] theorem hostRead_dtu (a : RegAddr) : (hostRead a s).dtu = s.dtu := rfl
@[simp] theorem hostRead_b32 (a : RegAddr) : (hostRead a s).b32 = s.b32 := rfl
@[simp] theorem hostRead_errcode (a : RegAddr) : (hostRead a s).errcode = s.errcode := rfl
@[simp] theorem hostRead_k (a : RegAddr) : (hostRead a s).k = s.k := rfl
@[simp] theorem hostRead_out (a : RegAddr) : (hostRead a s).out = s.out := rfl
@[simp] theorem hostRead_port (a : RegAddr) : (hostRead a s).port = s.port := rfl
@[simp] theorem hostRead_reads (a : RegAddr) : (hostRead a s).reads = s.reads ++ [(a, regRead a s)] := rfl
@[simp] theorem hostRead_consumed (a : RegAddr) : (hostRead a s).consumed = s.consumed := rfl

@[simp] theorem hostReset_dtu : (hostReset s).dtu = Dtu.reset := rfl
@[simp] theorem hostReset_b32 : (hostReset s).b32 = B32e.reset := rfl
@[simp] theorem hostReset_errcode : (hostReset s).errcode = 0 := rfl
@[simp] theorem hostReset_k : (hostReset s).k = s.k := rfl
@[simp] theorem hostReset_out : (hostReset s).out = s.out := rfl
@[simp] theorem hostReset_port : (hostReset s).port = s.port := rfl
@[simp] theorem hostReset_reads : (hostReset s).reads = s.reads := rfl
@[simp] theorem hostReset_consumed : (hostReset s).consumed = s.consumed := rfl

@[simp] theorem hostConsume_dtu : (hostConsume s).dtu = s.dtu := rfl
@[simp] theorem hostConsume_b32 : (hostConsume s).b32 = s.b32 := rfl
@[simp] theorem hostConsume_errcode : (hostConsume s).errcode = s.errcode := rfl
@[simp] theorem hostConsume_k : (hostConsume s).k = s.k := rfl
@[simp] theorem hostConsume_out : (hostConsume s).out = s.out := rfl
@[simp] theorem hostConsume_port : (hostConsume s).port = s.port := rfl
@[simp] theorem hostConsume_reads : (hostConsume s).reads = s.reads := rfl
@[simp] theorem hostConsume_consumed : (hostConsume s).consumed = if s.consumed < s.out.length then s.consumed + 1 else s.consumed := rfl

@[simp] theorem Dtu.dropResult_len : (d.dropResult).len = d.len := rfl
@[simp] theorem Dtu.dropResult_last : (d.dropResult).last = d.last := rfl
@[simp] theorem Dtu.dropResult_w : (d.dropResult).w = d.w := rfl
@[simp] theorem Dtu.dropResult_result : (d.dropResult).result = 0 := rfl
@[simp] theorem Dtu.dropResult_rvalid : (d.dropResult).rvalid = false := rfl
@[simp] theorem Dtu.dropResult_invalid : (d.dropResult).invalid = false := rfl

@[simp] theorem Dtu.giveResult_len (v : BitVec 31) : (d.giveResult v).len = d.len := rfl
@[simp] theorem Dtu.giveResult_last (v : BitVec 31) : (d.giveResult v).last = d.last := rfl
@[simp] theorem Dtu.giveResult_w (v : BitVec 31) : (d.giveResult v).w = d.w := rfl
@[simp] theorem Dtu.giveResult_result (v : BitVec 31) : (d.giveResult v).result = v.setWidth 32 := rfl
@[simp] theorem Dtu.giveResult_rvalid (v : BitVec 31) : (d.giveResult v).rvalid = true := rfl
@[simp] theorem Dtu.giveResult_invalid (v : BitVec 31) : (d.giveResult v).invalid = false := rfl

@[simp] theorem Dtu.failResult_len : (d.failResult).len = d.len := rfl
@[simp] theorem Dtu.failResult_last : (d.failResult).last = d.last := rfl
@[simp] theorem Dtu.failResult_w : (d.failResult).w = d.w := rfl
@[simp] theorem Dtu.failResult_result : (d.failResult).result = 0 := rfl
@[simp] theorem Dtu.failResult_rvalid : (d.failResult).rvalid = false := rfl
@[simp] theorem Dtu.failResult_invalid : (d.failResult).invalid = true := rfl

@[simp] theorem Dtu.restart_len : (d.restart).len = 0 := rfl
@[simp] theorem Dtu.restart_last : (d.restart).last = d.last := rfl
@[simp] theorem Dtu.restart_w : (d.restart).w = d.w := rfl
@[simp] theorem Dtu.restart_result : (d.restart).result = d.result := rfl
@[simp] theorem Dtu.restart_rvalid : (d.restart).rvalid = d.rvalid := rfl
@[simp] theorem Dtu.restart_invalid : (d.restart).invalid = d.invalid := rfl

/-- A finished command answers the state with the index advanced. -/
theorem done_eq : done s = .next s.tick := rfl

end Sys2Proof.Machine
end

