-- ==== Sys2Proof/Laws/Ops.lean ====
section
/-! SUPPORT. One lemma per shared operation that says once what it does: recording an error, the digest store, the group
loops of the machine and of the function, the register reads. -/

namespace Sys2Proof.Machine

/-! Recording an error (R24). -/

@[simp] theorem firstError_zero (e : ErrorCode) : firstError 0 e = e.code := by simp [firstError]

theorem firstError_of_ne {c : BitVec 4} (h : c ≠ 0) (e : ErrorCode) : firstError c e = c := if_neg h

/-! The digest store (R64). -/

theorem Dtu.store_of_lt {d : Dtu} (b : Byte) (h : d.len.toNat < 19) :
    d.store b = { d with w := d.w.set d.len.toNat b h, len := d.len + 1, last := b } := by
  simp [Dtu.store, h]

theorem Dtu.store_of_full {d : Dtu} (b : Byte) (h : 19 ≤ d.len.toNat) : d.store b = { d with last := b } := by
  simp [Dtu.store, Nat.not_lt.mpr h]

@[simp] theorem Dtu.store_last (d : Dtu) (b : Byte) : (d.store b).last = b := by
  unfold Dtu.store; split <;> rfl

theorem Dtu.store_len (d : Dtu) (b : Byte) :
    (d.store b).len.toNat = if d.len.toNat < 19 then d.len.toNat + 1 else d.len.toNat := by
  unfold Dtu.store; split
  · simp [BitVec.toNat_add, *]; omega
  · simp [*]

theorem Dtu.store_w (d : Dtu) (b : Byte) (j : Fin 19) :
    (d.store b).w[j] = if j.val = d.len.toNat then b else d.w[j] := by
  unfold Dtu.store; split
  · simp [Vector.getElem_set, eq_comm]
  · rw [if_neg (by have := j.isLt; omega)]

/-! The offset and the window (R59, R61). -/

theorem offsetOf_toNat (last : Byte) : (offsetOf last).toNat = last.toNat % 16 := by simp [offsetOf]

theorem windowFits_iff (d : Dtu) :
    windowFits d = true ↔ d.len ≠ 0 ∧ d.last.toNat % 16 + 4 ≤ d.len.toNat := by
  simp [windowFits, offsetOf_toNat]

/-- The 31-bit concatenation is R58's shifted sum. -/
theorem compose_toNat (b0 b1 b2 b3 : Byte) :
    (compose b0 b1 b2 b3).toNat =
      ((b0.toNat &&& 0x7F) <<< 24) ||| (b1.toNat <<< 16) ||| (b2.toNat <<< 8) ||| b3.toNat := by
  have h0 : b0.toNat &&& 0x7F = b0.toNat % 128 := by simpa using Nat.and_two_pow_sub_one_eq_mod b0.toNat 7
  have e : (b0.extractLsb' 0 7).toNat = b0.toNat % 128 := by simp
  simp only [compose, BitVec.toNat_append, e, h0, Nat.shiftLeft_or_distrib, ← Nat.shiftLeft_add]

/-! The group loops (R71, R73). -/

theorem mask12 (k : Nat) (h : k < 12) : ((1#12 <<< k) - 1).toNat = 2 ^ k - 1 := by
  have : ∀ k : Fin 12, ((1#12 <<< k.val) - 1).toNat = 2 ^ k.val - 1 := by decide
  exact this ⟨k, h⟩

/-- The machine's loop on 12 bits does what the function's loop does on naturals. -/
theorem takeGroups_eq_encodeGroups (n : Nat) (acc : BitVec 12) (c : Nat) (hc : c ≤ 16) :
    (takeGroups n acc c).1 = (encodeGroups n acc.toNat c).1.map charToken ∧
    (takeGroups n acc c).2.1.toNat = (encodeGroups n acc.toNat c).2.1 ∧
    (takeGroups n acc c).2.2 = (encodeGroups n acc.toNat c).2.2 := by
  induction n generalizing acc c with
  | zero => simp [takeGroups, encodeGroups]
  | succ n ih =>
    unfold takeGroups encodeGroups
    by_cases h : 5 ≤ c
    · have := ih (acc &&& ((1#12 <<< (c - 5)) - 1)) (c - 5) (by omega)
      rw [BitVec.toNat_and, mask12 _ (by omega)] at this
      simp only [h, if_true, Nat.one_shiftLeft, List.map_cons, this, and_self, and_true]
      congr 3
      apply BitVec.eq_of_toNat_eq
      simp [Nat.and_two_pow_sub_one_eq_mod _ 5 |> (by simpa using ·)]
    · simp [h]

/-- What the function's loop answers, in closed form: the count and the rest. -/
theorem encodeGroups_rest (n acc c : Nat) (hn : c ≤ 5 * n + 4) :
    (encodeGroups n acc c).1.length = c / 5 ∧ (encodeGroups n acc c).2.2 = c % 5 ∧
    (c < 5 → (encodeGroups n acc c).2.1 = acc) ∧ (5 ≤ c → (encodeGroups n acc c).2.1 = acc % 2 ^ (c % 5)) := by
  induction n generalizing acc c with
  | zero => simp [encodeGroups]; omega
  | succ n ih =>
    unfold encodeGroups
    by_cases h : 5 ≤ c
    · obtain ⟨h1, h2, h3, h4⟩ := ih (acc &&& (1 <<< (c - 5) - 1)) (c - 5) (by omega)
      simp only [h, if_true, List.length_cons, h1, h2]
      simp only [Nat.one_shiftLeft, Nat.and_two_pow_sub_one_eq_mod] at h3 h4 ⊢
      refine ⟨by omega, by omega, by omega, fun _ => ?_⟩
      by_cases h5 : 5 ≤ c - 5
      · rw [h4 h5, Nat.mod_mod_of_dvd _ (Nat.pow_dvd_pow 2 (Nat.mod_le _ _))]
        congr 2; omega
      · rw [h3 (by omega)]; congr 2; omega
    · simp only [h, if_false, List.length_nil]
      exact ⟨by omega, by omega, fun _ => trivial, fun h' => absurd h' (by simp)⟩

/-- The function's loop cuts the accumulator's bits: whole groups in front, looked up, and the rest pending. -/
theorem encodeGroups_bits (n acc c : Nat) (hn : c ≤ 5 * n + 4) :
    ∃ front, natBits c acc = front ++ natBits (encodeGroups n acc c).2.2 (encodeGroups n acc c).2.1 ∧
      front.length = 5 * (c / 5) ∧ (cutGroups front).map lut = (encodeGroups n acc c).1 := by
  induction n generalizing acc c with
  | zero => exact ⟨[], by simp [encodeGroups], by simp; omega, by simp [encodeGroups, cutGroups]⟩
  | succ n ih =>
    unfold encodeGroups
    by_cases h : 5 ≤ c
    · obtain ⟨front, hb, hl, hg⟩ := ih (acc &&& (1 <<< (c - 5) - 1)) (c - 5) (by omega)
      obtain ⟨k, rfl⟩ : ∃ k, c = k + 5 := ⟨c - 5, by omega⟩
      have e : natBits k (acc &&& (1 <<< k - 1)) = natBits k acc := natBits_congr fun i hi => by
        simp [Nat.one_shiftLeft, hi]
      simp only [Nat.add_sub_cancel] at hb hl hg
      refine ⟨acc.testBit (k + 4) :: acc.testBit (k + 3) :: acc.testBit (k + 2) :: acc.testBit (k + 1) ::
        acc.testBit k :: front, ?_, by simp [hl]; omega, ?_⟩
      · simp only [h, if_true, Nat.add_sub_cancel, natBits, List.cons_append, ← hb, e]
      · have e5 : (acc >>> k) &&& 0x1F = (acc >>> k) % 32 := by
          simpa using Nat.and_two_pow_sub_one_eq_mod (acc >>> k) 5
        have em : BitVec.ofNat 5 (acc >>> k % 32) = BitVec.ofNat 5 (acc >>> k) := by
          apply BitVec.eq_of_toNat_eq; simp
        simp only [h, if_true, Nat.add_sub_cancel, cutGroups, List.map_cons, hg, groupIndex_shift, e5, em]
    · exact ⟨[], by simp [h], by simp; omega, by simp [h, cutGroups]⟩

/-- The accumulator of one B32.PUSH as a number (R73). -/
theorem accumulator_toNat (p : BitVec 4) (b : Byte) :
    ((p.setWidth 12 <<< 8) ||| b.setWidth 12).toNat = (p.toNat <<< 8) ||| b.toNat := by
  have hp := p.isLt; have hb := b.isLt
  simp only [BitVec.toNat_or, BitVec.toNat_shiftLeft, BitVec.toNat_setWidth]
  rw [Nat.mod_eq_of_lt (show p.toNat < 2 ^ 12 by omega), Nat.mod_eq_of_lt (show b.toNat < 2 ^ 12 by omega),
    Nat.mod_eq_of_lt]
  rw [Nat.shiftLeft_eq]; omega

/-- One B32.PUSH, from any pending bits, in terms of the function's loop. -/
theorem B32e.groups_eq (u : B32e) (b : Byte) :
    (u.groups b).1 = (encodeGroups 3 ((u.p.toNat <<< 8) ||| b.toNat) (u.cnt.toNat + 8)).1.map charToken ∧
    (u.shiftIn b).p.toNat = (encodeGroups 3 ((u.p.toNat <<< 8) ||| b.toNat) (u.cnt.toNat + 8)).2.1 ∧
    (u.shiftIn b).cnt.toNat = (u.cnt.toNat + 8) % 5 := by
  have hc := u.cnt.isLt
  obtain ⟨h1, h2, h3⟩ := takeGroups_eq_encodeGroups 3 ((u.p.setWidth 12 <<< 8) ||| b.setWidth 12) (u.cnt.toNat + 8) (by omega)
  obtain ⟨-, r2, -, r4⟩ := encodeGroups_rest 3 ((u.p.toNat <<< 8) ||| b.toNat) (u.cnt.toNat + 8) (by omega)
  rw [accumulator_toNat] at h1 h2 h3
  refine ⟨h1, ?_, ?_⟩
  · have h16 : (encodeGroups 3 ((u.p.toNat <<< 8) ||| b.toNat) (u.cnt.toNat + 8)).2.1 < 16 := by
      rw [r4 (by omega)]
      exact Nat.lt_of_lt_of_le (Nat.mod_lt _ (by positivity))
        (show 2 ^ ((u.cnt.toNat + 8) % 5) ≤ 2 ^ 4 from Nat.pow_le_pow_right (by omega) (by omega))
    simp only [B32e.shiftIn, B32e.groups, BitVec.extractLsb'_toNat, Nat.shiftRight_zero, h2]
    omega
  · simp only [B32e.shiftIn, B32e.groups, h3, r2, BitVec.toNat_ofNat]; omega

/-! The tokens (R55, R70). -/

theorem lut_mem_alphabet (i : BitVec 5) : lut i ∈ alphabet := by revert i; decide

theorem lut_injective {i j : BitVec 5} (h : lut i = lut j) : i = j := by revert i j; decide

theorem charToken_toNat (c : Byte) : (charToken c).toNat = c.toNat := by
  show (0#1 ++ c : BitVec (1 + 8)).toNat = c.toNat
  rw [BitVec.toNat_append]; simp

theorem charToken_injective {c d : Byte} (h : charToken c = charToken d) : c = d := by
  apply BitVec.eq_of_toNat_eq
  simpa only [charToken_toNat] using congrArg BitVec.toNat h

/-! Register reads (R86): the three registers and the reserved address. -/

theorem regRead_result (s : State) : regRead 0 s = (s.dtu.result.extractLsb' 0 31).setWidth 32 := rfl
theorem regRead_status (s : State) : regRead 1 s = statusReg s := rfl
theorem regRead_acc (s : State) : regRead 2 s = s.b32.p.setWidth 32 := rfl
theorem regRead_reserved (s : State) : regRead 3 s = 0 := rfl

end Sys2Proof.Machine
end

