-- ==== Sys2Proof/Laws/PerInstr.lean ====
section
/-! SUPPORT. Statements made of every command, one lemma per constructor. -/

namespace Sys2Proof.Laws.LegalWord

/-- The word of a command passes the three checks of a legal word (R49, R50, R51). -/
def Statement (i : Instr) : Prop := Word.legal (encode i) = true

theorem nop : Statement .nop := by unfold Statement; decide
theorem dtClr : Statement .dtClr := by unfold Statement; decide
theorem dtPush (b : Byte) : Statement (.dtPush b) := by unfold Statement; revert b; decide
theorem dtExec : Statement .dtExec := by unfold Statement; decide
theorem b32Push (b : Byte) : Statement (.b32Push b) := by unfold Statement; revert b; decide
theorem b32End : Statement .b32End := by unfold Statement; decide
theorem errAck : Statement .errAck := by unfold Statement; decide

end Sys2Proof.Laws.LegalWord
end

