-- ==== Sys2Proof/Laws/Step.lean ====
section
/-! SUPPORT. What a step does, once for each host action, and the commands as equations. -/

namespace Sys2Proof.Machine

variable {s : State} {rest : List HostAction} {depth : Option Nat}

/-! The meanings, as `exec` dispatches them. -/

theorem exec_nop (s : State) : exec .nop s = .next s.tick := rfl
theorem exec_dtClr (s : State) : exec .dtClr s = .next (s.setDtu s.dtu.restart.dropResult).tick := rfl
theorem exec_dtPush (b : Byte) (s : State) :
    exec (.dtPush b) s = .next (s.setDtu (s.dtu.store b).dropResult).tick := rfl
theorem exec_b32Push (b : Byte) (s : State) :
    exec (.b32Push b) s = .next ((s.setB32 (s.b32.shiftIn b)).emit (s.b32.groups b).1).tick := rfl
theorem exec_b32End (s : State) :
    exec .b32End s = .next ((s.setB32 B32e.reset).emit (s.b32.flush ++ [eofToken])).tick := rfl
theorem exec_errAck (s : State) : exec .errAck s = .next (acknowledge s).tick := rfl

theorem exec_dtExec_of_fits {s : State} (h : windowFits s.dtu = true) :
    exec .dtExec s = .next (s.setDtu (s.dtu.giveResult (windowValue s.dtu))).tick := by
  simp [exec, execDtExec, h, done]

theorem exec_dtExec_of_not_fits {s : State} (h : windowFits s.dtu = false) :
    exec .dtExec s = .next (raiseError .invalidInput (s.setDtu s.dtu.failResult)).tick := by
  simp [exec, execDtExec, h, done]

/-! Words. -/

theorem runWord_cmd {w : Word} {i : Instr} (h : decode w = .cmd i) (s : State) : runWord w s = exec i s := by
  simp [runWord, h]

theorem runWord_illegal {w v : Word} {why : IllegalReason} (h : decode w = .illegal v why) (s : State) :
    runWord w s = .next (raiseError .illegalCommand s).tick := by
  simp [runWord, h, illegalWord, done]

/-- The output buffer of unbounded depth holds nothing back. -/
theorem present_none (w : Word) (s : State) : present none w s = runWord w s := by
  unfold present; split <;> simp_all [overflows]

/-! Steps, by the host's oldest action. -/

theorem step_nil (h : s.port = []) : stepWith depth s = .next s := by simp [stepWith, serve, h]

theorem step_command {w : Word} (h : s.port = .command w :: rest) :
    stepWith depth s = present depth w (s.setPort rest) := by simp [stepWith, serve, h]

theorem step_read {a : RegAddr} (h : s.port = .read a :: rest) :
    stepWith depth s = .next (hostRead a (s.setPort rest)) := by simp [stepWith, serve, h]

theorem step_reset (h : s.port = .reset :: rest) : stepWith depth s = .next (hostReset (s.setPort rest)) := by
  simp [stepWith, serve, h]

theorem step_consume (h : s.port = .consume :: rest) : stepWith depth s = .next (hostConsume (s.setPort rest)) := by
  simp [stepWith, serve, h]

theorem step_eq (s : State) : step s = stepWith none s := rfl

theorem step_command_unbounded {w : Word} (h : s.port = .command w :: rest) :
    step s = runWord w (s.setPort rest) := by rw [step_eq, step_command h, present_none]

end Sys2Proof.Machine
end

