-- ==== Sys2Proof/Tests/Slice0.lean ====
section
/-! SUPPORT. The model's own tests: words written out from the spec's encodings, one or two steps' effects per command with
the values of `95_test_vectors.md`, the refused words, and for each statement a state and operands that meet its hypotheses. -/

namespace Sys2Proof.Tests

open Sys2Proof.Machine Sys2Proof.Safety

/-! ### Helpers -/

/-- A DTU that has been pushed these bytes from reset. -/
def dtuOf (D : List Byte) : Dtu := D.foldl (fun d b => (d.store b).dropResult) Dtu.reset

/-- The reset state with this digest pushed. -/
def withDigest (D : List Byte) : State := { State.reset with dtu := dtuOf D }

/-- The reset state with these pending bits. -/
def withPending (p : BitVec 4) (cnt : BitVec 3) : State := { State.reset with b32 := { p := p, cnt := cnt } }

/-- The reset state with these actions pending. -/
def withActions (acts : List HostAction) : State := { State.reset with port := acts }

/-- A value of the next state; none if there is no next state. -/
def after {α : Type} (r : Host.Outcome State Fault Refusal) (f : State → α) : Option α :=
  match r with
  | .next s => some (f s)
  | .fault _ => none
  | .refused _ => none

/-- DT_RESULT, STATUS, B32_ACC, as the vectors write them. -/
def regs (s : State) : Reg × Reg × Reg := (regRead 0 s, regRead 1 s, regRead 2 s)

/-! ### Decoding: words written out bit by bit from R48 and R52 -/

theorem test_decode_nop : decode 0b0000_0000_00000000 = .cmd .nop := by decide
theorem test_decode_dtClr : decode 0b0001_0000_00000000 = .cmd .dtClr := by decide
theorem test_decode_dtPush : decode 0b0010_0000_11001100 = .cmd (.dtPush 0xCC) := by decide
theorem test_decode_dtExec : decode 0b0011_0000_00000000 = .cmd .dtExec := by decide
theorem test_decode_b32Push : decode 0b0100_0000_01100110 = .cmd (.b32Push 0x66) := by decide
theorem test_decode_b32End : decode 0b0101_0000_00000000 = .cmd .b32End := by decide
theorem test_decode_errAck : decode 0b0110_0000_00000000 = .cmd .errAck := by decide
theorem test_decode_bounds : decode 0x20FF = .cmd (.dtPush 0xFF) ∧ decode 0x4000 = .cmd (.b32Push 0x00) := by decide

/-- The illegal words of L2.3. -/
theorem test_decode_illegal :
    [0x0001, 0x0100, 0x10FF, 0x2F00, 0x3001, 0x4100, 0x5080, 0x6001, 0x7000, 0x8000, 0xFFFF].map (decodeTableWord 16) =
      List.replicate 11 none := by decide

/-! ### WellFormed: an ill-formed word for each check, which the check refuses -/

theorem test_wf_rsv : Word.rsvOk 0x2F00 = false ∧ Word.legal 0x2F00 = false := by decide
theorem test_wf_op : Word.opOk 0x7000 = false ∧ Word.legal 0x7000 = false := by decide
theorem test_wf_imm : Word.immOk 0x5080 = false ∧ Word.legal 0x5080 = false := by decide
theorem test_wf_legal : Word.legal 0x20FF = true ∧ Word.legal 0x6000 = true := by decide

/-- Each row of the table is its mnemonic's word (R52). -/
theorem test_rows_decode :
    opcodeTable.map (fun r => decode r.bits) =
      [.cmd .nop, .cmd .dtClr, .cmd (.dtPush 0), .cmd .dtExec, .cmd (.b32Push 0), .cmd .b32End, .cmd .errAck] := by decide

/-! ### The commands -/

/-- S2: NOP changes no register. -/
theorem test_nop : after (exec .nop (withDigest [0x41])) (fun s => (regs s, s.k)) = some ((0, 0x00000001, 0), 1) := by decide

/-- R63's example: after DT.PUSH 0x41, DT.CLR. -/
theorem test_dtClr : after (exec .dtClr (withDigest [0x41])) (fun s => (regs s, s.dtu.last)) = some ((0, 0, 0), 0x41) := by decide

/-- R64's example. -/
theorem test_dtPush_first :
    after (exec (.dtPush 0xCC) State.reset) (fun s => (s.dtu.w[0], s.dtu.last, s.dtu.len)) = some (0xCC, 0xCC, 1) := by decide

/-- R64: the 20th push writes only LAST. -/
theorem test_dtPush_full :
    after (exec (.dtPush 0xB0) (withDigest (List.replicate 19 0x11))) (fun s => (s.dtu.w[18], s.dtu.last, s.dtu.len)) =
      some (0x11, 0xB0, 19) := by decide

/-- T2: D[i] = i, 20 bytes, last byte 0x13. -/
theorem test_dtExec_value :
    after (exec .dtExec (withDigest ((List.range 20).map (BitVec.ofNat 8)))) regs = some (0x03040506, 0x00000033, 0) := by
  decide

/-- T8: the window passes the end of a 4-byte digest. -/
theorem test_dtExec_fails :
    after (exec .dtExec (withDigest [0x12, 0x34, 0x56, 0x71])) regs = some (0, 0x00001044, 0) := by decide

/-- R73's example: `f` from a boundary emits `M`. -/
theorem test_b32Push_one :
    after (exec (.b32Push 0x66) State.reset) (fun s => (s.out, regs s)) = some ([0x04D], (0, 0x300, 6)) := by decide

/-- P2's second row: 0x6F with three bits pending emits `Z` and `X`. -/
theorem test_b32Push_two :
    after (exec (.b32Push 0x6F) (withPending 6 3)) (fun s => (s.out, regs s)) = some ([0x05A, 0x058], (0, 0x100, 1)) := by
  decide

/-- R74's example: three pending bits. -/
theorem test_b32End_flush :
    after (exec .b32End (withPending 6 3)) (fun s => (s.out, regs s)) = some ([0x059, 0x100], (0, 0, 0)) := by decide

/-- B17, R81: nothing pending. -/
theorem test_b32End_empty : after (exec .b32End State.reset) (fun s => s.out) = some [0x100] := by decide

/-- S4: DT_INVALID survives ERR.ACK. -/
theorem test_errAck :
    after (exec .errAck { State.reset with dtu := Dtu.reset.failResult, errcode := 1 }) regs = some (0, 0x40, 0) := by decide

/-! ### Steps -/

/-- S3: an illegal word records code 2 and nothing else. -/
theorem test_illegal_word :
    after (step (withActions [.command 0x7000])) (fun s => (regs s, s.out, s.k)) = some ((0, 0x00002000, 0), [], 1) := by
  decide

/-- S4: the first error stays. -/
theorem test_first_error :
    after (step { withActions [.command 0x7000] with errcode := 1 }) (fun s => s.errcode) = some 1 := by decide

/-- S5: a register read answers B32_ACC. -/
theorem test_read :
    after (step { withPending 7 3 with port := [.read 2] }) (fun s => (s.reads, s.k)) = some ([(2, 0x00000007)], 0) := by
  decide

/-- P4: RST keeps the tokens and the index, and drops the pending bits. -/
theorem test_reset :
    after (step { withPending 6 3 with port := [.reset], out := [0x04D], k := 1 }) (fun s => (s.out, s.k, regs s)) =
      some ([0x04D], 1, (0, 0, 0)) := by decide

/-- The word placed for the next step is the one that runs. -/
theorem test_withFetchWord :
    after (step (State.reset.withFetchWord 16 0x20CC)) (fun s => (s.dtu.last, s.dtu.len, s.port)) = some (0xCC, 1, []) := by
  decide

/-- R110: a buffer of depth 1 that is full holds a B32.PUSH, and the host's consumption makes room. -/
theorem test_hold :
    after (stepWith (some 1) { withActions [.command 0x4066, .consume] with out := [0x041] })
      (fun s => (s.out, s.port, s.consumed, s.k)) = some ([0x041], [.command 0x4066], 1, 0) := by decide

/-! ### The two functions -/

/-- L1-4: the RFC 4226 digest, 1284755224. -/
theorem test_truncate :
    truncate [0xcc, 0x93, 0xcf, 0x18, 0x50, 0x8d, 0x94, 0x93, 0x4c, 0x64, 0xb6, 0x5d, 0x8b, 0xa7, 0x66, 0x7f, 0xb7, 0xcd,
      0xe4, 0xb0] = some 1284755224 := by decide

/-- T5: 18 bytes with offset 15. -/
theorem test_truncate_short : truncate ((List.range 17).map (BitVec.ofNat 8) ++ [0x0F]) = none := by decide

/-- L1-6: "foobar" is "MZXW6YTBOI". -/
theorem test_encode :
    encode32 [0x66, 0x6F, 0x6F, 0x62, 0x61, 0x72] =
      [0x4D, 0x5A, 0x58, 0x57, 0x36, 0x59, 0x54, 0x42, 0x4F, 0x49] := by decide

/-- B15: every entry of the table once. -/
theorem test_encode_alphabet :
    encode32 [0x00, 0x44, 0x32, 0x14, 0xC7, 0x42, 0x54, 0xB6, 0x35, 0xCF, 0x84, 0x65, 0x3A, 0x56, 0xD7, 0xC6, 0x75, 0xBE,
      0x77, 0xDF] = alphabet := by decide

/-! ### The assembler -/

/-- P3's lines: a comment, an operand, the directive, and a refused second line named. -/
theorem test_assemble :
    assemble "DT.PUSH 0x71 ; last byte\n\n  .word 0x7000".toList = .words [0x2071, 0x7000] ∧
    assemble "NOP\nDT.PUSH 256".toList = .refused 2 .badOperand := by decide

/-! ### Witnesses: the statements' hypotheses can be met -/

theorem witness_OpcodeTableDecides :
    ((0x0000 : Word) &&& 0xFFFF = 0x0000 ∧ (0x20FF : Word) &&& 0xFF00 = 0x2000 ∧ (0x4000 : Word) &&& 0xFF00 = 0x4000) ∧
    ∀ r ∈ opcodeTable, r.matches 0x7000 = false := by decide
theorem witness_DecodeInvertsEncode : decode 0x20FF = .cmd (.dtPush 0xFF) := by decide
theorem witness_StepRunsTheDecodedCommand :
    (withActions [.command 0x40FF, .reset]).port = .command 0x40FF :: [.reset] ∧ decode 0x40FF = .cmd (.b32Push 0xFF) := by
  decide
theorem witness_IllegalWordOnlyRecordsTheError :
    (withActions [.command 0x2F00]).port = .command 0x2F00 :: [] ∧ decode 0x2F00 = .illegal 0x2F00 .reservedBits := by decide
theorem witness_IdleChangesNothing : State.reset.port = [] := rfl
theorem witness_ResetGivesEveryItemItsValue :
    ({ withDigest [1, 2] with port := [.reset, .command 0] } : State).port = .reset :: [.command 0] := rfl
theorem witness_CommandIndexCountsCommands :
    (∃ t, step (withActions [.command 0x3000]) = .next t ∧ t.k = 1) ∧
    (∃ t, step (withActions [.read 1]) = .next t ∧ t.k = 0) := ⟨⟨_, rfl, rfl⟩, ⟨_, rfl, rfl⟩⟩
theorem witness_OutputStreamOnlyGrows : ∃ t, stepWith (some 0) (withActions [.command 0x5000]) = .next t := ⟨_, rfl⟩
theorem witness_RegisterReadOnlyAnswers : (withActions [.read 3]).port = .read 3 :: [] := rfl
theorem witness_BlockInv : BlockInv (withDigest [0x12, 0x34, 0x56, 0x70]) := by
  constructor <;> simp [withDigest, dtuOf, Dtu.store, Dtu.reset, State.reset, B32e.reset]
theorem witness_PushAppendsOneByte :
    (withDigest (List.replicate 18 0)).dtu.len.toNat < 19 ∧ 19 ≤ (withDigest (List.replicate 19 0)).dtu.len.toNat := by decide
theorem witness_ExecTruncatesOrFails :
    let s := withDigest [0x12, 0x34, 0x56, 0x70]
    let f := withDigest [0x12, 0x34, 0x56, 0x71]
    (s.dtu.last.toNat % 16 = 0 ∧ s.dtu.len ≠ 0 ∧ 0 + 4 ≤ s.dtu.len.toNat) ∧
    (f.dtu.len.toNat < f.dtu.last.toNat % 16 + 4) ∧ State.reset.dtu.len = 0 := by decide
theorem witness_EndFlushesAndClosesTheFrame :
    (withPending 0 0).b32.cnt = 0 ∧ (0 < (withPending 1 1).b32.cnt.toNat ∧ (withPending 1 1).b32.cnt.toNat ≤ 4) ∧
    (0 < (withPending 15 4).b32.cnt.toNat ∧ (withPending 15 4).b32.cnt.toNat ≤ 4) := by decide
theorem witness_NopOnlyAdvancesTheIndex : (0x0F00 : Word).extractLsb' 12 4 = 0 ∧ (0x0F00 : Word) ≠ 0 := by decide
theorem witness_EveryCommandKeepsWhatItDoesNotWrite :
    Instr.nop ≠ .dtExec ∧ Instr.nop ≠ .errAck ∧ Instr.nop ≠ .dtClr ∧ Instr.nop ≠ .b32End ∧ (∀ b, Instr.nop ≠ .dtPush b) ∧
      ∀ b, Instr.nop ≠ .b32Push b := by simp
theorem witness_FirstErrorIsKept : ∃ t, runWord 0x3000 State.reset = .next t ∧ t.errcode = 1 := ⟨_, rfl, rfl⟩
theorem witness_HoldsDigest : HoldsDigest [0x10, 0x20, 0x30] (withDigest [0x10, 0x20, 0x30]) := by
  constructor <;> decide
theorem witness_HoldsDigest_long : HoldsDigest (List.replicate 20 7) (withDigest (List.replicate 20 7)) := by
  constructor <;> decide
theorem witness_OnlyExecRaisesInvalidInput :
    HoldsDigest [0x10, 0x20, 0x30] (withDigest [0x10, 0x20, 0x30]) ∧ (withDigest [0x10, 0x20, 0x30]).errcode = 0 ∧
      ∃ t, runWord 0x3000 (withDigest [0x10, 0x20, 0x30]) = .next t ∧ t.errcode = 1 :=
  ⟨witness_HoldsDigest, rfl, _, rfl, rfl⟩
theorem witness_TruncationRange :
    truncate [0x80, 0, 0, 0] = some 0 ∧ [0x80, 0, 0, (0 : Byte)].getLast? = some 0 ∧
    truncate (List.replicate 19 0xFF) = some (2 ^ 31 - 1) := by decide
theorem witness_TruncationComposesBigEndian : truncate [0x12, 0x34, 0x56, 0x70] = some 0x12345670 := by decide
theorem witness_FailureSetByLength :
    [(1 : Byte)].length = 1 ∧ truncate [0, 0, 0, 1] = none ∧ truncate [0, 0, 0, 0x10] ≠ none ∧
    truncate (List.replicate 18 0x0F) = none ∧ truncate (List.replicate 19 0x0F) ≠ none := by decide
theorem witness_DigestStoreFollowsThePushes :
    HoldsDigest (List.replicate 20 7) (withDigest (List.replicate 20 7)) ∧ decode 0x7000 = .illegal 0x7000 .reservedOpcode ∧
    ∃ t, step (withActions [.reset]) = .next t := ⟨witness_HoldsDigest_long, by decide, _, rfl⟩
theorem witness_ExecComputesTruncate :
    HoldsDigest [0x10, 0x20, 0x30] (withDigest [0x10, 0x20, 0x30]) ∧ truncate [0x10, 0x20, 0x30] = none ∧
    HoldsDigest (List.replicate 20 7) (withDigest (List.replicate 20 7)) ∧
    truncate (List.replicate 20 7) = some 0x07070707 := ⟨witness_HoldsDigest, by decide, witness_HoldsDigest_long, by decide⟩
theorem witness_RepeatedExecGivesTheSame :
    (withActions [.command 0x3000, .command 0x4066, .read 1, .command 0x3000]).port =
      .command 0x3000 :: ([.command 0x4066, .read 1] ++ .command 0x3000 :: []) ∧
    ∀ a ∈ [HostAction.command 0x4066, .read 1], keepsDigest a := by
  have h : decode 0x4066#16 = .cmd (.b32Push 0x66) := by decide
  simp [withActions, keepsDigest, h]
theorem witness_OnlyAlphabetCharactersAreEmitted :
    ∃ t, step (withActions [.command 0x4066]) = .next t ∧ t.out.drop 0 = [0x04D] := ⟨_, rfl, by decide⟩
theorem witness_EncodeIsInjective : encode32 [0x66] = encode32 [0x66] ∧ encode32 [0x66] ≠ encode32 [0x67] := by decide
theorem witness_TokensPerCommandByCount :
    [0, 1, 2, 3, 4].map (fun c => (withPending 0 c).b32.cnt) = [0, 1, 2, 3, 4] ∧ (withPending 0 4).b32.cnt ≠ 0 := by decide
theorem witness_PendingBitsFollowTheFrame :
    HoldsFrame [0x66] { withPending 6 3 with out := [0x04D] } ∧
    ({ withPending 6 3 with out := [0x04D] } : State).out = [] ++ openTokens [0x66] := by
  refine ⟨?_, by decide⟩
  constructor <;> decide
theorem witness_FrameIsEncoded : State.reset.b32.p = 0 ∧ State.reset.b32.cnt = 0 := ⟨rfl, rfl⟩
theorem witness_UnitsAreIndependent :
    (∃ t, runWord 0x3000 State.reset = .next t) ∧ (∃ t, runWord 0x3000 (withPending 1 1) = .next t) ∧
    State.reset.dtu = (withPending 1 1).dtu ∧ State.reset.b32 = (withDigest [1]).b32 := ⟨⟨_, rfl⟩, ⟨_, rfl⟩, rfl, rfl⟩
theorem witness_EveryStepKeepsTheInvariant :
    BlockInv (withDigest [0x12, 0x34, 0x56, 0x70]) ∧
    ∃ t, stepWith (some 1) (withDigest [0x12, 0x34, 0x56, 0x70]) = .next t := ⟨witness_BlockInv, _, rfl⟩
theorem witness_EveryStepFollowsTheHistory :
    Agrees .start (withActions [.command 0x4066]) ∧ (withActions [.command 0x4066]).port = .command 0x4066 :: [] := by
  refine ⟨⟨?_, rfl, rfl, rfl, by simp [History.start], by simp [History.start], rfl, ?_, rfl, rfl, rfl⟩, rfl⟩
  · constructor <;> decide
  · constructor <;> decide
theorem witness_FullBufferHoldsTheCommand :
    let s := { withActions [.command 0x4066, .consume] with out := [0x041] }
    s.port = .command 0x4066 :: [.consume] ∧ s.waiting.length ≤ 1 ∧
      ∃ u, step s = .next u ∧ s.out.length < u.out.length ∧ 1 < u.waiting.length := ⟨rfl, by decide, _, rfl, by decide, by decide⟩
theorem witness_HoldsChangeNoResult :
    ∃ t, runWith (some 1) 3 { withActions [.command 0x4066, .consume] with out := [0x041] } = .next t ∧ t.port = [] :=
  ⟨_, rfl, rfl⟩
theorem witness_CommandSampleLines : hexDigit 'f' = some 15 ∧ hexDigit '0' = some 0 ∧ hexDigit 'A' = some 10 := by decide
theorem witness_PseudoCommandsExpandForEveryByteList :
    List.Forall₂ ByteText [['7'], ['0', 'x', '0', 'F']] [7, 15] ∧ List.Forall₂ ByteText [] [] ∧
    List.Forall₂ HexPair [['c', 'C'], ['0', '0']] [0xCC, 0] ∧
    (';' ∉ "cc9".toList ∧ "cc9".toList.length % 2 = 1) ∧ (';' ∉ "g0".toList ∧ ∃ c ∈ "g0".toList, hexDigit c = none) :=
  ⟨.cons (.decimal 7)
      (.cons (.hex (.digits (x := 0) (y := 15) (by decide) (by decide) (by decide))) .nil), .nil,
    .cons (.digits (x := 12) (y := 12) (by decide) (by decide) (by decide))
      (.cons (.digits (x := 0) (y := 0) (by decide) (by decide) (by decide)) .nil),
    by decide, by decide, 'g', by decide, rfl⟩

theorem witness_CommandLinesAssembleOrAreRefused :
    (ByteText ['7'] 7 ∧ HexPair ['7', '0'] 0x70 ∧ HexPair ['0', '0'] 0) ∧ ';' ∉ "NOP ".toList ∧ 255 < 256 ∧
    (';' ∉ ['0'] ∧ isBlank '0' = false) ∧
    (∀ c ∈ "nop".toList, c ≠ ';' ∧ isBlank c = false) ∧
    ∀ known ∈ opcodeTable.map (·.mnemonic) ++ ["DT.LOAD", "DT.TRUNC", "DT.LOADHEX", "B32.FRAME", ".word"],
      "nop".toList ≠ known.toList :=
  ⟨⟨.decimal 7, .digits (x := 7) (y := 0) (by decide) (by decide) (by decide),
    .digits (x := 0) (y := 0) (by decide) (by decide) (by decide)⟩, by decide, by decide, by decide, by simp; decide,
    by simp [opcodeTable]⟩
theorem witness_TextAssemblesLineByLine :
    (∀ n, assembleLine n "NOP".toList = .words [0]) ∧ (∀ n, assembleLine n "NOP 0".toList = .refused n .unexpectedOperand) ∧
    ∀ l ∈ ["NOP".toList, "NOP 0".toList], '\n' ∉ l := ⟨fun _ => rfl, fun _ => rfl, by simp⟩

end Sys2Proof.Tests
end

section
/-! SUPPORT. What any command, any word and any step can do, said once: each claim about every command or every step is a
case analysis of one of these. -/

namespace Sys2Proof.Machine

/-- What a command does before the index advances: one constructor per path of a meaning (R63 to R65, R73, R74, R84, R85). -/
inductive Effect : Instr → State → State → Prop where
  | nop (s : State) : Effect .nop s s
  | dtClr (s : State) : Effect .dtClr s (s.setDtu s.dtu.restart.dropResult)
  | dtPush (b : Byte) (s : State) : Effect (.dtPush b) s (s.setDtu (s.dtu.store b).dropResult)
  | dtExecValue {s : State} (fits : windowFits s.dtu = true) :
      Effect .dtExec s (s.setDtu (s.dtu.giveResult (windowValue s.dtu)))
  | dtExecFails {s : State} (short : windowFits s.dtu = false) :
      Effect .dtExec s (raiseError .invalidInput (s.setDtu s.dtu.failResult))
  | b32Push (b : Byte) (s : State) :
      Effect (.b32Push b) s ((s.setB32 (s.b32.shiftIn b)).emit (s.b32.groups b).1)
  | b32End (s : State) : Effect .b32End s ((s.setB32 B32e.reset).emit (s.b32.flush ++ [eofToken]))
  | errAck (s : State) : Effect .errAck s (acknowledge s)

/-- Every command completes, and by one of its paths (R87). -/
theorem exec_completes (i : Instr) (s : State) : ∃ u, Effect i s u ∧ exec i s = .next u.tick := by
  cases i with
  | nop => exact ⟨_, .nop s, exec_nop s⟩
  | dtClr => exact ⟨_, .dtClr s, exec_dtClr s⟩
  | dtPush b => exact ⟨_, .dtPush b s, exec_dtPush b s⟩
  | dtExec =>
    cases h : windowFits s.dtu with
    | true => exact ⟨_, .dtExecValue h, exec_dtExec_of_fits h⟩
    | false => exact ⟨_, .dtExecFails h, exec_dtExec_of_not_fits h⟩
  | b32Push b => exact ⟨_, .b32Push b s, exec_b32Push b s⟩
  | b32End => exact ⟨_, .b32End s, exec_b32End s⟩
  | errAck => exact ⟨_, .errAck s, exec_errAck s⟩

theorem effect_of_exec {i : Instr} {s t : State} (h : exec i s = .next t) : ∃ u, Effect i s u ∧ t = u.tick := by
  obtain ⟨u, hu, he⟩ := exec_completes i s
  exact ⟨u, hu, by simpa [h] using he⟩

/-- Before the index advances, a command leaves it alone. -/
theorem Effect.k_eq {i : Instr} {s u : State} (h : Effect i s u) : u.k = s.k := by cases h <;> rfl

/-- Every command only appends to the output stream: the B32E's what they emit, the others nothing (R32). -/
theorem Effect.out_prefix {i : Instr} {s u : State} (h : Effect i s u) : s.out <+: u.out := by
  cases h with
  | b32Push b => exact List.prefix_append ..
  | b32End => exact List.prefix_append ..
  | _ => exact List.prefix_rfl

/-- A word is a command's effect, or an illegal word's recorded error, and then the index advances (R29, R54, R94). -/
theorem runWord_cases {w : Word} {s t : State} (h : runWord w s = .next t) :
    ∃ u, t = u.tick ∧ ((∃ i, decode w = .cmd i ∧ Effect i s u) ∨
      ((∃ v why, decode w = .illegal v why) ∧ u = raiseError .illegalCommand s)) := by
  cases hd : decode w with
  | cmd i =>
    obtain ⟨u, hu, rfl⟩ := effect_of_exec (runWord_cmd hd s ▸ h)
    exact ⟨u, rfl, .inl ⟨i, rfl, hu⟩⟩
  | illegal v why =>
    rw [runWord_illegal hd] at h
    cases h
    exact ⟨_, rfl, .inr ⟨⟨v, why, rfl⟩, rfl⟩⟩

theorem runWord_k {w : Word} {s t : State} (h : runWord w s = .next t) : t.k = s.k + 1 := by
  obtain ⟨u, rfl, ⟨i, -, hu⟩ | ⟨-, rfl⟩⟩ := runWord_cases h
  · rw [State.tick_k, hu.k_eq]
  · rfl

theorem runWord_out_prefix {w : Word} {s t : State} (h : runWord w s = .next t) : s.out <+: t.out := by
  obtain ⟨u, rfl, ⟨i, -, hu⟩ | ⟨-, rfl⟩⟩ := runWord_cases h
  · exact hu.out_prefix
  · exact List.prefix_rfl

@[simp] theorem hold_out (w : Word) (s : State) : (hold w s).out = s.out := by
  unfold hold; split <;> rfl

/-- What a step can be at any output depth: one constructor per host action, two for a command word (R10, R110). -/
inductive Served (s : State) : State → Prop where
  | idle : s.port = [] → Served s s
  | ran {w : Word} {rest : List HostAction} {t : State} :
      s.port = .command w :: rest → runWord w (s.setPort rest) = .next t → Served s t
  | held {w : Word} {rest : List HostAction} : s.port = .command w :: rest → Served s (hold w (s.setPort rest))
  | read {a : RegAddr} {rest : List HostAction} : s.port = .read a :: rest → Served s (hostRead a (s.setPort rest))
  | reset {rest : List HostAction} : s.port = .reset :: rest → Served s (hostReset (s.setPort rest))
  | consumed {rest : List HostAction} : s.port = .consume :: rest → Served s (hostConsume (s.setPort rest))

/-- A presented word runs, or is held. -/
theorem present_cases {depth : Option Nat} {w : Word} {s t : State} (h : present depth w s = .next t) :
    runWord w s = .next t ∨ t = hold w s := by
  unfold present at h
  split at h
  · split at h
    · cases h; exact .inr rfl
    · cases h; exact .inl ‹_›
  · cases h
  · cases h

theorem served_of_stepWith {depth : Option Nat} {s t : State} (h : stepWith depth s = .next t) : Served s t := by
  cases hp : s.port with
  | nil => rw [step_nil hp] at h; cases h; exact .idle hp
  | cons a rest =>
    cases a with
    | command w =>
      rw [step_command hp] at h
      obtain hr | rfl := present_cases h
      · exact .ran hp hr
      · exact .held hp
    | read a => rw [step_read hp] at h; cases h; exact .read hp
    | reset => rw [step_reset hp] at h; cases h; exact .reset hp
    | consume => rw [step_consume hp] at h; cases h; exact .consumed hp

end Sys2Proof.Machine

namespace Sys2Proof.Proofs

open Sys2Proof.Machine Sys2Proof.Safety

/-- Settles O11: a command word is `runWord`, which advances the index; every other host action keeps it. -/
theorem commandIndexCountsCommands : Obligations.CommandIndexCountsCommands := by
  intro s t h
  constructor
  · rintro ⟨w, rest, hp⟩
    rw [step_command_unbounded hp] at h
    simpa using runWord_k h
  · intro noCommand
    cases served_of_stepWith h with
    | ran hp | held hp => exact absurd hp (noCommand _ _)
    | idle | read | reset | consumed => rfl

/-- Settles O12: a word that runs appends, and a held word and every other host action leave the stream as it is. -/
theorem outputStreamOnlyGrows : Obligations.OutputStreamOnlyGrows := by
  intro depth s t h
  cases served_of_stepWith h with
  | ran _ hr => simpa using runWord_out_prefix hr
  | held => rw [hold_out]; exact List.prefix_rfl
  | idle | read | reset | consumed => exact List.prefix_rfl

end Sys2Proof.Proofs
end

section
/-! SUPPORT. STATUS bit by bit, the digest store under each command, and the states that hold the empty digest and the empty
frame. -/

namespace Sys2Proof.Machine

open Sys2Proof.Safety

/-! STATUS is a concatenation: a field is what is left above the fields below it (R25). -/

theorem statusReg_len (s : State) : (statusReg s).extractLsb' 0 5 = s.dtu.len := BitVec.extractLsb'_append_eq_right

theorem statusReg_cnt (s : State) : (statusReg s).extractLsb' 8 3 = s.b32.cnt := by
  unfold statusReg
  iterate 4 rw [BitVec.extractLsb'_append_eq_of_le (by decide)]
  exact BitVec.extractLsb'_append_eq_right

theorem statusReg_errcode (s : State) : (statusReg s).extractLsb' 12 4 = s.errcode := by
  unfold statusReg
  iterate 6 rw [BitVec.extractLsb'_append_eq_of_le (by decide)]
  exact BitVec.extractLsb'_append_eq_right

theorem statusReg_high (s : State) : (statusReg s).extractLsb' 16 16 = 0 := by
  unfold statusReg
  iterate 7 rw [BitVec.extractLsb'_append_eq_of_le (by decide)]
  rfl

/-- Whether the digest is held depends on LEN, W and LAST only (R17). -/
theorem holdsDigest_congr {D : List Byte} {s t : State} (h : HoldsDigest D s) (hlen : t.dtu.len = s.dtu.len)
    (hw : t.dtu.w = s.dtu.w) (hlast : t.dtu.last = s.dtu.last) : HoldsDigest D t := by
  obtain ⟨len, window, last⟩ := h
  exact ⟨hlen ▸ len, hw ▸ hlen ▸ window, hlast ▸ last⟩

/-- With LEN at 0 the digest is empty, whatever W and LAST hold. -/
theorem holdsDigest_nil {s : State} (h : s.dtu.len = 0) : HoldsDigest [] s :=
  ⟨by simp [h], fun i hi => by simp [h] at hi, fun hD => absurd rfl hD⟩

/-- Storing a byte extends the held digest: below 19 bytes in W, from 19 on in LAST alone (R16, R64). -/
theorem holdsDigest_store {D : List Byte} {s t : State} {b : Byte} (ht : t.dtu = (s.dtu.store b).dropResult)
    (h : HoldsDigest D s) : HoldsDigest (D ++ [b]) t := by
  obtain ⟨len, window, -⟩ := h
  have hlen : t.dtu.len.toNat = if s.dtu.len.toNat < 19 then s.dtu.len.toNat + 1 else s.dtu.len.toNat := by
    rw [ht]; exact Dtu.store_len ..
  have hw (i : Fin 19) : t.dtu.w[i] = if i.val = s.dtu.len.toNat then b else s.dtu.w[i] := by
    rw [ht]; exact Dtu.store_w ..
  refine ⟨?_, fun i hi => ?_, fun _ => by simp [ht]⟩
  · rw [hlen, len, List.length_append, List.length_singleton]; split <;> omega
  · rw [hw]
    by_cases hnew : i.val = s.dtu.len.toNat
    · have hD : i.val = D.length := by have := i.isLt; omega
      rw [if_pos hnew, hD, List.getElem?_concat_length]
    · have hold : i.val < s.dtu.len.toNat := by rw [hlen] at hi; split at hi <;> omega
      rw [if_neg hnew, List.getElem?_append_left (by omega), window i hold]

/-- The digest store follows each command (R17). -/
theorem Effect.holdsDigest {i : Instr} {D : List Byte} {s u : State} (he : Effect i s u) (h : HoldsDigest D s) :
    HoldsDigest (digestAfterCmd D i) u := by
  cases he with
  | dtClr => exact holdsDigest_nil rfl
  | dtPush b => exact holdsDigest_store rfl h
  | _ => exact holdsDigest_congr h rfl rfl rfl

theorem holdsDigest_hostReset (s : State) : HoldsDigest [] (hostReset s) := holdsDigest_nil rfl

/-- A frame boundary: nothing pending (R23). -/
theorem holdsFrame_nil {s : State} (h : s.b32 = B32e.reset) : HoldsFrame [] s := by
  constructor <;> simp [h, B32e.reset, frameBits, bitsValue]

/-- DT.EXEC's failure condition in the numbers of R65. -/
theorem windowFits_eq_false_iff (d : Dtu) :
    windowFits d = false ↔ d.len = 0 ∨ d.len.toNat < d.last.toNat % 16 + 4 := by
  rw [← Bool.not_eq_true, windowFits_iff, not_and_or, not_not, not_le]

end Sys2Proof.Machine

namespace Sys2Proof.Proofs

open Sys2Proof.Machine Sys2Proof.Safety

/-- Settles O9: `hostReset` puts the DTU, the B32E and ERRCODE at their reset values and writes nothing else. -/
theorem resetGivesEveryItemItsValue : Obligations.ResetGivesEveryItemItsValue := by
  intro s rest hp
  have hw (i : Fin 19) : (hostReset (s.setPort rest)).dtu.w[i] = 0 := by simp [Dtu.reset]
  exact ⟨_, step_reset hp, rfl, rfl, hw, rfl, rfl, rfl, rfl, rfl, rfl, rfl, rfl, rfl, rfl, rfl,
    holdsDigest_hostReset _, holdsFrame_nil rfl, rfl, rfl, rfl⟩

/-- Settles O14, field by field. -/
theorem statusRegisterLayout : Obligations.StatusRegisterLayout := by
  intro s
  rw [regRead_status]
  refine ⟨statusReg_len s, ?rvalid, ?invalid, ?bit7, statusReg_cnt s, ?bit11, statusReg_errcode s, statusReg_high s, rfl⟩
  case rvalid | invalid | bit7 | bit11 => simp only [statusReg, BitVec.getLsbD_append]; simp

/-- Settles O25: of all words only a failing DT.EXEC, ERR.ACK and an illegal word write ERRCODE, and the first two kinds of
error keep a code that stands. -/
theorem firstErrorIsKept : Obligations.FirstErrorIsKept := by
  refine ⟨fun s rest hp => ⟨_, step_reset hp, rfl⟩, fun w s t h => ?_⟩
  obtain ⟨u, rfl, ⟨i, hd, he⟩ | ⟨⟨v, why, hd⟩, rfl⟩⟩ := runWord_cases h
  · cases he with
    | dtExecValue fits => simp only [hd, ← windowFits_eq_false_iff, fits]; simp
    | dtExecFails short => simp only [hd, ← windowFits_eq_false_iff, short]; exact if_congr (by simp) rfl rfl
    | _ => simp [hd]
  · simp [hd, firstError, ErrorCode.code]

/-- Settles O30: DT.PUSH by `holdsDigest_store`, DT.CLR and reset by LEN = 0; the others write none of LEN, W and LAST. -/
theorem digestStoreFollowsThePushes : Obligations.DigestStoreFollowsThePushes := by
  refine ⟨fun D i s h => ?_, fun D w v why s h hd => ?_, fun s t hp h => ?_⟩
  · obtain ⟨u, he, hx⟩ := exec_completes i s
    exact ⟨_, hx, holdsDigest_congr (he.holdsDigest h) rfl rfl rfl⟩
  · exact ⟨_, runWord_illegal hd s, holdsDigest_congr h rfl rfl rfl⟩
  · obtain ⟨rest, hp⟩ := hp
    rw [step_eq, step_reset hp] at h
    cases h
    exact holdsDigest_hostReset _

end Sys2Proof.Proofs
end

section
/-! SUPPORT. The encoder on bit strings: `encode32` cuts the frame's bits into groups (R37), and the B32E's pending bits are
what the whole groups leave of them (R23). -/

namespace Sys2Proof.Machine

open Sys2Proof.Safety

theorem frameBits_cons (b : Byte) (F : List Byte) : frameBits (b :: F) = byteBits b ++ frameBits F := rfl

/-- Fewer than five bits are one group with zeros below, or no group (R71 step 4, R74). -/
theorem cutGroups_natBits_of_lt {c : Nat} (hc : c < 5) (a : Nat) :
    cutGroups (natBits c a) = if 0 < c then [BitVec.ofNat 5 (a <<< (5 - c))] else [] := by
  have group := groupIndex_testBits (a <<< (5 - c))
  interval_cases c <;> simp [natBits, cutGroups, Nat.testBit_shiftLeft] at group ⊢
  all_goals exact group

/-- R71 from any accumulator with fewer than five pending bits cuts those bits and the frame's behind them. -/
theorem encodeFrom_eq_cutGroups (F : List Byte) (acc cnt : Nat) (hc : cnt < 5) :
    encodeFrom acc cnt F = (cutGroups (natBits cnt acc ++ frameBits F)).map lut := by
  induction F generalizing acc cnt with
  | nil =>
    have low : (acc <<< (5 - cnt)) &&& 0x1F = (acc <<< (5 - cnt)) % 2 ^ 5 := Nat.and_two_pow_sub_one_eq_mod _ 5
    have index : BitVec.ofNat 5 ((acc <<< (5 - cnt)) &&& 0x1F) = BitVec.ofNat 5 (acc <<< (5 - cnt)) := by
      apply BitVec.eq_of_toNat_eq; rw [low]; simp
    rw [encodeFrom, index, frameBits, List.flatMap_nil, List.append_nil, cutGroups_natBits_of_lt hc]
    split <;> rfl
  | cons b F ih =>
    obtain ⟨front, bits, len, groups⟩ := encodeGroups_bits (cnt + 8) ((acc <<< 8) ||| b.toNat) (cnt + 8) (by omega)
    obtain ⟨-, rest, -⟩ := encodeGroups_rest (cnt + 8) ((acc <<< 8) ||| b.toNat) (cnt + 8) (by omega)
    rw [natBits_append_byte] at bits
    rw [encodeFrom, frameBits_cons, ← List.append_assoc, bits, List.append_assoc, cutGroups_append _ _ _ len,
      List.map_append, groups, ih _ _ (by omega)]

/-- `encode` cuts the frame's bit string (R37). -/
theorem encode32_eq_cutGroups (F : List Byte) : encode32 F = (cutGroups (frameBits F)).map lut :=
  encodeFrom_eq_cutGroups F 0 0 (by omega)

/-- The bits of a frame's complete groups. -/
def groupedBits (F : List Byte) : List Bool := (frameBits F).take (5 * (8 * F.length / 5))

/-- The bits of a frame that no complete group holds. -/
def pendingBits (F : List Byte) : List Bool := (frameBits F).drop (5 * (8 * F.length / 5))

theorem groupedBits_append_pendingBits (F : List Byte) : groupedBits F ++ pendingBits F = frameBits F :=
  List.take_append_drop ..

theorem groupedBits_length (F : List Byte) : (groupedBits F).length = 5 * (8 * F.length / 5) := by
  simp [groupedBits, frameBits_length]; omega

theorem pendingBits_length (F : List Byte) : (pendingBits F).length = 8 * F.length % 5 := by
  simp [pendingBits, frameBits_length]; omega

/-- Any cut of a frame's bits that leaves `8m mod 5` of them is the cut into complete groups and pending bits. -/
theorem groupedBits_pendingBits_of_split {F : List Byte} {front rest : List Bool} (h : frameBits F = front ++ rest)
    (hrest : rest.length = 8 * F.length % 5) : groupedBits F = front ∧ pendingBits F = rest :=
  List.append_inj' ((groupedBits_append_pendingBits F).trans h) ((pendingBits_length F).trans hrest.symm)

theorem encode32_eq_grouped_append_pending (F : List Byte) :
    encode32 F = (cutGroups (groupedBits F)).map lut ++ (cutGroups (pendingBits F)).map lut := by
  rw [encode32_eq_cutGroups, ← groupedBits_append_pendingBits, cutGroups_append _ _ _ (groupedBits_length F),
    List.map_append]

/-- An open frame has emitted its complete groups (R23). -/
theorem openTokens_eq (F : List Byte) : openTokens F = ((cutGroups (groupedBits F)).map lut).map charToken := by
  rw [openTokens, encode32_eq_grouped_append_pending, List.take_left']
  rw [List.length_map, cutGroups_length, groupedBits_length]; omega

theorem openTokens_length (F : List Byte) : (openTokens F).length = 8 * F.length / 5 := by
  rw [openTokens_eq, List.length_map, List.length_map, cutGroups_length, groupedBits_length]; omega

/-- A whole frame's tokens: those of its complete groups, the character of its pending bits, EOF (R77). -/
theorem frameTokens_eq (F : List Byte) :
    frameTokens F = openTokens F ++ (((cutGroups (pendingBits F)).map lut).map charToken ++ [eofToken]) := by
  rw [frameTokens, encode32_eq_grouped_append_pending, openTokens_eq, List.map_append, List.append_assoc]

/-- The B32E holds the frame `F` when CNT counts the pending bits and P is their value (R23). -/
theorem holdsFrame_iff (F : List Byte) (s : State) :
    HoldsFrame F s ↔ s.b32.cnt.toNat = 8 * F.length % 5 ∧ s.b32.p.toNat = bitsValue (pendingBits F) := by
  have start : 8 * F.length - 8 * F.length % 5 = 5 * (8 * F.length / 5) := by omega
  constructor
  · rintro ⟨cnt, pending⟩
    exact ⟨cnt, by rw [pending, cnt, start, pendingBits]⟩
  · rintro ⟨cnt, pending⟩
    exact ⟨cnt, by rw [pending, cnt, start, pendingBits]⟩

/-- The bits the B32E holds, the oldest first: the low CNT bits of P (R21). -/
def B32e.heldBits (u : B32e) : List Bool := natBits u.cnt.toNat u.p.toNat

/-- The bits the B32E holds are the frame's pending bits (R23). -/
theorem heldBits_eq_pendingBits {F : List Byte} {s : State} (h : HoldsFrame F s) :
    s.b32.heldBits = pendingBits F := by
  obtain ⟨cnt, pending⟩ := (holdsFrame_iff F s).mp h
  rw [B32e.heldBits, cnt, pending, ← pendingBits_length, natBits_bitsValue]

theorem holdsFrame_congr {F : List Byte} {s t : State} (h : HoldsFrame F s) (hb : t.b32 = s.b32) : HoldsFrame F t := by
  rw [holdsFrame_iff] at h ⊢; rwa [hb]

/-- Nothing is pending at a frame boundary: P is 0 when CNT is 0 (R21). -/
theorem p_eq_zero_of_cnt_eq_zero {F : List Byte} {s : State} (h : HoldsFrame F s) (hcnt : s.b32.cnt = 0) :
    s.b32.p = 0 := by
  obtain ⟨-, pending⟩ := (holdsFrame_iff F s).mp h
  have empty : pendingBits F = [] := by rw [← heldBits_eq_pendingBits h, B32e.heldBits, hcnt]; rfl
  apply BitVec.eq_of_toNat_eq
  rw [pending, empty]; rfl

/-- B32.PUSH on bit strings: the byte goes behind the pending bits, whole groups come out, the rest is pending (R73). -/
theorem shiftIn_bits (u : B32e) (b : Byte) :
    ∃ front, u.heldBits ++ byteBits b = front ++ (u.shiftIn b).heldBits ∧
      front.length = 5 * ((u.cnt.toNat + 8) / 5) ∧ (u.groups b).1 = ((cutGroups front).map lut).map charToken := by
  have hc := u.cnt.isLt
  obtain ⟨front, bits, len, groups⟩ :=
    encodeGroups_bits 3 ((u.p.toNat <<< 8) ||| b.toNat) (u.cnt.toNat + 8) (by omega)
  obtain ⟨-, count, -⟩ := encodeGroups_rest 3 ((u.p.toNat <<< 8) ||| b.toNat) (u.cnt.toNat + 8) (by omega)
  obtain ⟨out, p, cnt⟩ := B32e.groups_eq u b
  rw [natBits_append_byte, count, ← p, ← cnt] at bits
  exact ⟨front, bits, len, by rw [out, groups]⟩

/-- After B32.PUSH, P has no bit at or above CNT (R21, R76). -/
theorem shiftIn_p_lt (u : B32e) (b : Byte) : (u.shiftIn b).p.toNat < 2 ^ (u.shiftIn b).cnt.toNat := by
  have hc := u.cnt.isLt
  obtain ⟨-, -, -, masked⟩ := encodeGroups_rest 3 ((u.p.toNat <<< 8) ||| b.toNat) (u.cnt.toNat + 8) (by omega)
  obtain ⟨-, p, cnt⟩ := B32e.groups_eq u b
  rw [p, cnt, masked (by omega)]
  exact Nat.mod_lt _ (by positivity)

/-- A pushed byte cuts the longer frame where its complete groups end, and the new groups' characters are emitted. -/
theorem shiftIn_extends_frame {F : List Byte} {s : State} (h : HoldsFrame F s) (b : Byte) :
    pendingBits (F ++ [b]) = (s.b32.shiftIn b).heldBits ∧
      openTokens (F ++ [b]) = openTokens F ++ (s.b32.groups b).1 := by
  obtain ⟨front, bits, -, out⟩ := shiftIn_bits s.b32 b
  obtain ⟨-, -, cnt⟩ := B32e.groups_eq s.b32 b
  rw [heldBits_eq_pendingBits h] at bits
  have split : frameBits (F ++ [b]) = (groupedBits F ++ front) ++ (s.b32.shiftIn b).heldBits := by
    rw [frameBits_append, frameBits_singleton, ← groupedBits_append_pendingBits F, List.append_assoc, bits,
      List.append_assoc]
  obtain ⟨grouped, pending⟩ := groupedBits_pendingBits_of_split split (by
    rw [B32e.heldBits, natBits_length, cnt, h.cnt, List.length_append, List.length_singleton]; omega)
  refine ⟨pending, ?_⟩
  rw [openTokens_eq, openTokens_eq, grouped, cutGroups_append _ _ _ (groupedBits_length F), out, List.map_append,
    List.map_append]

theorem holdsFrame_shiftIn {F : List Byte} {s t : State} {b : Byte} (ht : t.b32 = s.b32.shiftIn b)
    (h : HoldsFrame F s) : HoldsFrame (F ++ [b]) t := by
  obtain ⟨pending, -⟩ := shiftIn_extends_frame h b
  obtain ⟨-, -, cnt⟩ := B32e.groups_eq s.b32 b
  rw [holdsFrame_iff, ht, pending, B32e.heldBits, bitsValue_natBits, Nat.mod_eq_of_lt (shiftIn_p_lt ..)]
  refine ⟨?_, rfl⟩
  rw [cnt, h.cnt, List.length_append, List.length_singleton]; omega

/-- B32.END's last character is the group of the pending bits (R74). -/
theorem flush_eq {F : List Byte} {s : State} (h : HoldsFrame F s) :
    s.b32.flush = ((cutGroups (pendingBits F)).map lut).map charToken := by
  have index : s.b32.p.setWidth 5 <<< (5 - s.b32.cnt.toNat) =
      BitVec.ofNat 5 (s.b32.p.toNat <<< (5 - s.b32.cnt.toNat)) := by
    apply BitVec.eq_of_toNat_eq; simp [Nat.shiftLeft_eq]
  rw [← heldBits_eq_pendingBits h, B32e.heldBits, cutGroups_natBits_of_lt (by rw [h.cnt]; omega), B32e.flush, index]
  split <;> rfl

/-- The B32E follows each command (R23). -/
theorem Effect.holdsFrame {i : Instr} {F : List Byte} {s u : State} (he : Effect i s u) (h : HoldsFrame F s) :
    HoldsFrame (frameAfterCmd F i) u := by
  cases he with
  | b32Push b => exact holdsFrame_shiftIn rfl h
  | b32End => exact holdsFrame_nil rfl
  | _ => exact holdsFrame_congr h rfl

/-- An unfinished frame's tokens follow each command but B32.END (R23). -/
theorem Effect.openTokens_out {i : Instr} {F : List Byte} {s u : State} {before : List Token} (he : Effect i s u)
    (h : HoldsFrame F s) (hout : s.out = before ++ openTokens F) (hi : i ≠ .b32End) :
    u.out = before ++ openTokens (frameAfterCmd F i) := by
  cases he with
  | b32Push b =>
    obtain ⟨-, emitted⟩ := shiftIn_extends_frame h b
    rw [State.emit_out, State.setB32_out, hout, frameAfterCmd, emitted, List.append_assoc]
  | b32End => exact absurd rfl hi
  | _ => exact hout

/-- B32.END completes the frame's tokens (R74, R77). -/
theorem Effect.frameTokens_out {F : List Byte} {s u : State} {before : List Token} (he : Effect .b32End s u)
    (h : HoldsFrame F s) (hout : s.out = before ++ openTokens F) : u.out = before ++ frameTokens F := by
  cases he
  rw [State.emit_out, State.setB32_out, hout, flush_eq h, frameTokens_eq, List.append_assoc]

end Sys2Proof.Machine

namespace Sys2Proof.Proofs

open Sys2Proof.Machine Sys2Proof.Safety

/-- Settles O40: B32.PUSH cuts the longer frame where its complete groups end, B32.END's last group is the pending bits, and
no other command writes P, CNT or the output stream. -/
theorem pendingBitsFollowTheFrame : Obligations.PendingBitsFollowTheFrame := by
  intro F i s before h hout
  obtain ⟨u, he, hx⟩ := exec_completes i s
  refine ⟨_, hx, holdsFrame_congr (he.holdsFrame h) rfl, fun hi => ?_, fun hi => ?_, openTokens_length F,
    p_eq_zero_of_cnt_eq_zero h⟩
  · exact he.openTokens_out h hout hi
  · subst hi; exact he.frameTokens_out h hout

end Sys2Proof.Proofs
end

section
namespace Sys2Proof.Proofs

open Sys2Proof.Machine

/-- Settles O35: by `encodeFrom_eq_cutGroups`, the induction on the bytes, from the accumulator with no pending bits. -/
theorem encodeCutsTheBitString : Obligations.EncodeCutsTheBitString := encode32_eq_cutGroups

end Sys2Proof.Proofs
end

section
/-! SUPPORT. The opcode table against the decoder: a command is decoded from its own word only, what a row's mask keeps of a
word's fields, and the list of all commands. -/

namespace Sys2Proof

/-! ### Decoding and encoding -/

@[simp] theorem decode_encode (i : Instr) : decode (encode i) = .cmd i := by
  cases i with
  | dtPush b | b32Push b => exact decode_pack ..
  | _ => rfl

/-- A word with a nonzero RSV is no command, whatever its OP (R50). -/
theorem rsvField_of_decode_cmd {w : Word} {i : Instr} (h : decode w = .cmd i) : rsvField w = 0 := by
  by_contra hrsv
  rw [decode, if_pos hrsv] at h
  cases h

/-- A command is decoded from its own word only (R52). -/
theorem decode_eq_cmd_iff {w : Word} {i : Instr} : decode w = .cmd i ↔ w = encode i := by
  constructor
  · intro h
    have fields := packWord_fields w (rsvField_of_decode_cmd h)
    generalize opField w = op, imm8Field w = b at fields
    subst fields
    rw [decode_pack] at h
    split at h <;> simp only [decodeBare_eq_cmd, imm8Field_pack, Decoded.cmd.injEq, reduceCtorEq] at h
    case h_3 | h_5 => subst h; rfl
    all_goals obtain ⟨rfl, rfl⟩ := h; rfl
  · rintro rfl; exact decode_encode i

theorem encode_injective : Function.Injective encode := fun i _ h =>
  Decoded.cmd.inj ((decode_encode i).symm.trans (decode_eq_cmd_iff.mpr h))

theorem eq_of_decodeBare_illegal {w v : Word} {i : Instr} {why : IllegalReason} (h : decodeBare w i = .illegal v why) :
    v = w := by
  unfold decodeBare at h
  split at h <;> cases h
  rfl

/-- An illegal word is reported itself (R54). -/
theorem eq_of_decode_illegal {w v : Word} {why : IllegalReason} (h : decode w = .illegal v why) : v = w := by
  unfold decode at h
  split at h
  · cases h; rfl
  · split at h
    case h_3 | h_5 => cases h
    case h_8 => cases h; rfl
    all_goals exact eq_of_decodeBare_illegal h

/-! ### Matching by mask (R52) -/

theorem opField_and (w m : Word) : opField (w &&& m) = opField w &&& opField m := BitVec.extractLsb'_and

theorem rsvField_and (w m : Word) : rsvField (w &&& m) = rsvField w &&& rsvField m := BitVec.extractLsb'_and

theorem imm8Field_and (w m : Word) : imm8Field (w &&& m) = imm8Field w &&& imm8Field m := BitVec.extractLsb'_and

theorem opField_and_operandMask (w : Word) : opField (w &&& 0xFF00) = opField w := by
  rw [opField_and]; exact BitVec.and_allOnes

theorem rsvField_and_operandMask (w : Word) : rsvField (w &&& 0xFF00) = rsvField w := by
  rw [rsvField_and]; exact BitVec.and_allOnes

theorem imm8Field_and_operandMask (w : Word) : imm8Field (w &&& 0xFF00) = 0 := by
  rw [imm8Field_and]; exact BitVec.and_zero

/-- The mask of a row with an operand fixes OP and RSV and leaves IMM8 free. -/
theorem and_operandMask_eq_iff {w : Word} {op : BitVec 4} :
    w &&& 0xFF00 = packWord op 0 ↔ w = packWord op (imm8Field w) := by
  constructor
  · intro h
    have hop : opField w = op := by rw [← opField_and_operandMask, h, opField_pack]
    have hrsv : rsvField w = 0 := by rw [← rsvField_and_operandMask, h, rsvField_pack]
    rw [← hop, packWord_fields w hrsv]
  · intro h
    have hop : opField (w &&& 0xFF00) = op := by rw [opField_and_operandMask, h, opField_pack]
    have hrsv : rsvField (w &&& 0xFF00) = 0 := by rw [rsvField_and_operandMask, h, rsvField_pack]
    rw [← packWord_fields _ hrsv, hop, imm8Field_and_operandMask]

/-- The mask of a row without an operand leaves nothing free: its one word decodes to its command. -/
theorem decode_of_and_fullMask {w : Word} {i : Instr} (h : w &&& 0xFFFF = encode i) : decode w = .cmd i :=
  decode_eq_cmd_iff.mpr (BitVec.and_allOnes.symm.trans h)

/-- The words of a row with an operand decode to its command on their IMM8. -/
theorem decode_of_and_operandMask {w : Word} {op : BitVec 4} {cmd : Byte → Instr}
    (hcmd : ∀ b, encode (cmd b) = packWord op b) (h : w &&& 0xFF00 = packWord op 0) :
    decode w = .cmd (cmd (w.setWidth 8)) := by
  have himm : imm8Field w = w.setWidth 8 := (BitVec.setWidth_eq_extractLsb' (by decide)).symm
  rw [decode_eq_cmd_iff, hcmd, ← himm]
  exact and_operandMask_eq_iff.mp h

/-- Every command has a row that its word matches. -/
theorem exists_row_matches_encode (i : Instr) : ∃ r ∈ opcodeTable, r.matches (encode i) = true := by
  have operand (op : BitVec 4) (b : Byte) : (packWord op b &&& 0xFF00 == packWord op 0) = true :=
    beq_iff_eq.mpr (and_operandMask_eq_iff.mpr (by rw [imm8Field_pack]))
  cases i with
  | dtPush b => exact ⟨⟨"DT.PUSH", 0x2000, 0xFF00⟩, by simp [opcodeTable], operand 2 b⟩
  | b32Push b => exact ⟨⟨"B32.PUSH", 0x4000, 0xFF00⟩, by simp [opcodeTable], operand 4 b⟩
  | _ => decide

/-- Every row's mask covers OP, so a word has the OP of a row it matches. -/
theorem opField_eq_of_matches {r : Row} {w : Word} (hr : r ∈ opcodeTable) (h : r.matches w = true) :
    opField w = opField r.bits := by
  have covered : ∀ r ∈ opcodeTable, opField r.mask = BitVec.allOnes 4 := by decide
  rw [← beq_iff_eq.mp h, opField_and, covered r hr, BitVec.and_allOnes]

/-! ### All commands -/

/-- The operands an IMM8 can hold, in order (R51). -/
def allBytes : List Byte := (List.finRange 256).map BitVec.ofFin

/-- The commands: five without an operand, and two with any byte (R52). -/
def allCommands : List Instr :=
  [.nop, .dtClr, .dtExec, .b32End, .errAck] ++ (allBytes.map .dtPush ++ allBytes.map .b32Push)

theorem mem_allBytes (b : Byte) : b ∈ allBytes := List.mem_map.mpr ⟨b.toFin, List.mem_finRange _, rfl⟩

theorem nodup_allBytes : allBytes.Nodup :=
  (List.nodup_finRange 256).map fun _ _ h => BitVec.ofFin.inj h

theorem mem_allCommands (i : Instr) : i ∈ allCommands := by
  cases i <;> simp [allCommands, mem_allBytes]

theorem nodup_allCommands : allCommands.Nodup := by
  have push : (allBytes.map Instr.dtPush).Nodup := nodup_allBytes.map fun _ _ h => Instr.dtPush.inj h
  have b32Push : (allBytes.map Instr.b32Push).Nodup := nodup_allBytes.map fun _ _ h => Instr.b32Push.inj h
  simp [allCommands, List.nodup_append, push, b32Push]

theorem length_allCommands : allCommands.length = 5 + 2 * 256 := by
  simp [allCommands, allBytes]

end Sys2Proof

namespace Sys2Proof.Proofs

/-- Settles O3: a row's mask and `decode_eq_cmd_iff` give its words' command; a command's word matches a row; OP tells the
rows apart; the legal words are the words of `allCommands`. -/
theorem opcodeTableDecides : Obligations.OpcodeTableDecides := by
  refine ⟨fun _ => decode_of_and_fullMask (i := .nop), fun _ => decode_of_and_fullMask (i := .dtClr),
    fun _ => decode_of_and_operandMask (op := 2) fun _ => rfl, fun _ => decode_of_and_fullMask (i := .dtExec),
    fun _ => decode_of_and_operandMask (op := 4) fun _ => rfl, fun _ => decode_of_and_fullMask (i := .b32End),
    fun _ => decode_of_and_fullMask (i := .errAck), ?noRow, ?disjoint, allCommands.map encode, ?nodup, ?count, ?legal⟩
  case noRow =>
    intro w noRow
    cases hd : decode w with
    | cmd i =>
      obtain ⟨r, hr, hm⟩ := exists_row_matches_encode i
      rw [← decode_eq_cmd_iff.mp hd, noRow r hr] at hm
      cases hm
    | illegal v why => exact ⟨why, by rw [eq_of_decode_illegal hd]⟩
  case disjoint =>
    intro w
    have distinct : opcodeTable.Pairwise fun r q => opField r.bits ≠ opField q.bits := by decide
    refine distinct.imp_of_mem fun hr hq hne => ?_
    rintro ⟨hrw, hqw⟩
    exact hne ((opField_eq_of_matches hr hrw).symm.trans (opField_eq_of_matches hq hqw))
  case nodup => exact nodup_allCommands.map encode_injective
  case count => rw [List.length_map, length_allCommands]
  case legal =>
    intro w
    constructor
    · intro hw
      obtain ⟨i, -, rfl⟩ := List.mem_map.mp hw
      exact ⟨i, decode_encode i⟩
    · rintro ⟨i, hi⟩
      exact List.mem_map.mpr ⟨i, mem_allCommands i, (decode_eq_cmd_iff.mp hi).symm⟩

end Sys2Proof.Proofs
end

section
/-! SUPPORT. `truncate` by its window (R58 to R61), the DTU's window as `truncate`'s, and each unit after a command as a
function of that unit alone (R68). -/

namespace Sys2Proof.Machine

open Sys2Proof.Safety

/-! ### The window of a byte list -/

/-- A concatenation's value: the upper part shifted up by the width of the lower one. -/
theorem append_toNat_eq_sum {n m : Nat} (x : BitVec n) (y : BitVec m) :
    (x ++ y).toNat = x.toNat * 2 ^ m + y.toNat := by
  rw [BitVec.toNat_append, ← Nat.shiftLeft_add_eq_or_of_lt y.isLt, Nat.shiftLeft_eq]

/-- The window's value as a sum of its digits in base 256, the first byte without its bit 7 (R61). -/
theorem compose_toNat_eq_sum (b0 b1 b2 b3 : Byte) :
    (compose b0 b1 b2 b3).toNat =
      b0.toNat % 2 ^ 7 * 2 ^ 24 + b1.toNat * 2 ^ 16 + b2.toNat * 2 ^ 8 + b3.toNat := by
  have low7 : (b0.extractLsb' 0 7).toNat = b0.toNat % 2 ^ 7 := by simp
  simp only [compose, append_toNat_eq_sum, low7]
  omega

/-- `D`'s window at the offset of its last byte is these four bytes (R59, R60). -/
structure WindowIs (D : List Byte) (last b0 b1 b2 b3 : Byte) : Prop where
  isLast : D.getLast? = some last
  byte0 : D[last.toNat % 16]? = some b0
  byte1 : D[last.toNat % 16 + 1]? = some b1
  byte2 : D[last.toNat % 16 + 2]? = some b2
  byte3 : D[last.toNat % 16 + 3]? = some b3

/-- The offset by the mask of R58 is the offset by remainder (R59). -/
theorem low4_eq_mod (n : Nat) : n &&& 0x0F = n % 16 := Nat.and_two_pow_sub_one_eq_mod n 4

/-- A digest whose window passes its end has no truncation (R60). -/
theorem truncate_of_short {D : List Byte} {last : Byte} (hlast : D.getLast? = some last)
    (short : D.length < last.toNat % 16 + 4) : truncate D = none := by
  rw [truncate, hlast]
  exact dif_neg (by rw [low4_eq_mod]; omega)

/-- A digest's truncation is the value of its window (R61). -/
theorem truncate_of_window {D : List Byte} {last b0 b1 b2 b3 : Byte} (h : WindowIs D last b0 b1 b2 b3) :
    truncate D = some (compose b0 b1 b2 b3).toNat := by
  obtain ⟨hlast, h0, h1, h2, h3⟩ := h
  obtain ⟨_, rfl⟩ := List.getElem?_eq_some_iff.mp h0
  obtain ⟨_, rfl⟩ := List.getElem?_eq_some_iff.mp h1
  obtain ⟨_, rfl⟩ := List.getElem?_eq_some_iff.mp h2
  obtain ⟨fits, rfl⟩ := List.getElem?_eq_some_iff.mp h3
  rw [compose_toNat, truncate, hlast]
  simp only [low4_eq_mod]
  exact dif_pos fits

/-- A window that does not pass the end is there. -/
theorem exists_window {D : List Byte} {last : Byte} (hlast : D.getLast? = some last)
    (fits : last.toNat % 16 + 4 ≤ D.length) : ∃ b0 b1 b2 b3, WindowIs D last b0 b1 b2 b3 :=
  ⟨_, _, _, _, hlast, List.getElem?_eq_getElem (by omega), List.getElem?_eq_getElem (by omega),
    List.getElem?_eq_getElem (by omega), List.getElem?_eq_getElem (by omega)⟩

/-- INVALID_INPUT exactly when the window passes the end (R60). -/
theorem truncate_eq_none_iff {D : List Byte} {last : Byte} (hlast : D.getLast? = some last) :
    truncate D = none ↔ D.length < last.toNat % 16 + 4 := by
  refine ⟨fun fails => ?_, truncate_of_short hlast⟩
  by_contra fits
  obtain ⟨b0, b1, b2, b3, window⟩ := exists_window hlast (Nat.not_lt.mp fits)
  rw [truncate_of_window window] at fails
  cases fails

/-- A truncation comes from a window (R58). -/
theorem window_of_truncate {D : List Byte} {v : Nat} (h : truncate D = some v) :
    ∃ last b0 b1 b2 b3, WindowIs D last b0 b1 b2 b3 ∧ v = (compose b0 b1 b2 b3).toNat := by
  cases hlast : D.getLast? with
  | none => rw [List.getLast?_eq_none_iff.mp hlast] at h; cases h
  | some last =>
    have fits : last.toNat % 16 + 4 ≤ D.length := by
      by_contra short
      rw [truncate_of_short hlast (Nat.not_le.mp short)] at h
      cases h
    obtain ⟨b0, b1, b2, b3, window⟩ := exists_window hlast fits
    rw [truncate_of_window window] at h
    exact ⟨last, b0, b1, b2, b3, window, (Option.some.inj h).symm⟩

theorem exists_last_of_length_pos {D : List Byte} (h : 0 < D.length) : ∃ last, D.getLast? = some last :=
  ⟨_, List.getLast?_eq_some_getLast (List.ne_nil_of_length_pos h)⟩

/-! ### The window of the DTU -/

theorem windowByte_eq {d : Dtu} {o : Nat} (j : Fin 4) (ho : o = d.last.toNat % 16) (h : o + j.val < 19) :
    windowByte d j = d.w[o + j.val] := by
  subst ho
  simp only [windowByte, offsetOf_toNat]

/-- A digest that fits keeps its whole window in W, so the DTU's window is the digest's (R16, R17). -/
theorem windowIs_of_holdsDigest {D : List Byte} {s : State} (h : HoldsDigest D s) (fits : windowFits s.dtu = true) :
    WindowIs D s.dtu.last (windowByte s.dtu 0) (windowByte s.dtu 1) (windowByte s.dtu 2) (windowByte s.dtu 3) := by
  obtain ⟨len, window, last⟩ := h
  obtain ⟨-, hfits⟩ := (windowFits_iff _).mp fits
  have stored (j : Fin 4) : D[s.dtu.last.toNat % 16 + j.val]? = some (windowByte s.dtu j) := by
    have inW : s.dtu.last.toNat % 16 + j.val < 19 := by omega
    rw [windowByte_eq j rfl inW]
    exact window ⟨_, inW⟩ (Nat.lt_of_lt_of_le (Nat.add_lt_add_left j.isLt _) hfits)
  exact ⟨last (List.ne_nil_of_length_pos (by omega)), stored 0, stored 1, stored 2, stored 3⟩

/-- A digest that does not fit is empty or too short for its window, at any length: the window ends at 19 at most (R69). -/
theorem truncate_eq_none_of_holdsDigest {D : List Byte} {s : State} (h : HoldsDigest D s)
    (short : windowFits s.dtu = false) : truncate D = none := by
  obtain ⟨len, -, last⟩ := h
  by_cases hD : D = []
  · subst hD; rfl
  · refine truncate_of_short (last hD) ?_
    have pos : 0 < D.length := List.length_pos_of_ne_nil hD
    obtain zero | short := (windowFits_eq_false_iff _).mp short
    · have empty : s.dtu.len.toNat = 0 := by rw [zero]; rfl
      omega
    · omega

/-! ### Each unit after a command (R68) -/

/-- DT.EXEC's effect on the DTU (R65). -/
def Dtu.execute (d : Dtu) : Dtu := if windowFits d then d.giveResult (windowValue d) else d.failResult

/-- The DTU after a command, from the DTU alone. -/
def Dtu.after (d : Dtu) : Instr → Dtu
  | .dtClr => d.restart.dropResult
  | .dtPush b => (d.store b).dropResult
  | .dtExec => d.execute
  | .nop | .b32Push _ | .b32End | .errAck => d

/-- The B32E after a command, from the B32E alone. -/
def B32e.after (u : B32e) : Instr → B32e
  | .b32Push b => u.shiftIn b
  | .b32End => B32e.reset
  | .nop | .dtClr | .dtPush _ | .dtExec | .errAck => u

/-- The tokens a command emits, from the B32E alone. -/
def B32e.emits (u : B32e) : Instr → List Token
  | .b32Push b => (u.groups b).1
  | .b32End => u.flush ++ [eofToken]
  | .nop | .dtClr | .dtPush _ | .dtExec | .errAck => []

variable {i : Instr} {s u : State}

theorem Effect.dtu_eq (h : Effect i s u) : u.dtu = s.dtu.after i := by
  cases h with
  | dtExecValue fits => exact (if_pos fits).symm
  | dtExecFails short => exact (if_neg (Bool.eq_false_iff.mp short)).symm
  | _ => rfl

theorem Effect.b32_eq (h : Effect i s u) : u.b32 = s.b32.after i := by cases h <;> rfl

theorem Effect.out_eq (h : Effect i s u) : u.out = s.out ++ s.b32.emits i := by
  cases h with
  | b32Push | b32End => rfl
  | _ => exact (List.append_nil _).symm

/-- No command touches the host's side (R43). -/
theorem Effect.sameHostSide (h : Effect i s u) : SameHostSide s u := by cases h <;> exact ⟨rfl, rfl, rfl⟩

/-! ### The digest between two DT.EXECs (R67)

The digest's items are compared by dropping the result (`Dtu.dropResult_eq_iff`). -/

theorem Dtu.dropResult_eq_iff {d e : Dtu} :
    e.dropResult = d.dropResult ↔ e.len = d.len ∧ e.last = d.last ∧ e.w = d.w := by simp [Dtu.dropResult]

theorem Dtu.execute_dropResult (d : Dtu) : d.dropResult.execute = d.execute := rfl

theorem Dtu.dropResult_execute (d : Dtu) : d.execute.dropResult = d.dropResult := by
  unfold Dtu.execute; split <;> rfl

theorem Dtu.execute_congr {d e : Dtu} (h : e.dropResult = d.dropResult) : e.execute = d.execute := by
  rw [← execute_dropResult e, h, execute_dropResult]

/-- Only DT.CLR and DT.PUSH write the digest. -/
theorem Effect.dropResult_eq (h : Effect i s u) (hclr : i ≠ .dtClr) (hpush : ∀ b, i ≠ .dtPush b) :
    u.dtu.dropResult = s.dtu.dropResult := by
  cases h with
  | dtClr => exact absurd rfl hclr
  | dtPush b => exact absurd rfl (hpush b)
  | _ => rfl

theorem runWord_completes (w : Word) (s : State) : ∃ t, runWord w s = .next t := by
  cases hd : decode w with
  | cmd i =>
    obtain ⟨u, -, hx⟩ := exec_completes i s
    exact ⟨_, (runWord_cmd hd s).trans hx⟩
  | illegal v why => exact ⟨_, runWord_illegal hd s⟩

theorem runWord_port {w : Word} {s t : State} (h : runWord w s = .next t) : t.port = s.port := by
  obtain ⟨u, rfl, ⟨i, -, he⟩ | ⟨-, rfl⟩⟩ := runWord_cases h
  · obtain ⟨port, -⟩ := he.sameHostSide
    exact port
  · rfl

theorem runWord_keeps_digest {w : Word} {s t : State} (h : runWord w s = .next t)
    (hw : keepsDigest (.command w)) : t.dtu.dropResult = s.dtu.dropResult := by
  obtain ⟨-, noDigestCommand⟩ := hw
  obtain ⟨hclr, hpush⟩ := noDigestCommand w rfl
  obtain ⟨u, rfl, ⟨i, hd, he⟩ | ⟨-, rfl⟩⟩ := runWord_cases h
  · rw [hd] at hclr hpush
    exact he.dropResult_eq (fun hi => hclr (hi ▸ rfl)) fun b hi => hpush b (hi ▸ rfl)
  · rfl

/-- An action of those R67 allows between two DT.EXECs is served and keeps the digest. -/
theorem step_keeps_digest {s : State} {a : HostAction} {rest : List HostAction} (hp : s.port = a :: rest)
    (ha : keepsDigest a) : ∃ t, step s = .next t ∧ t.port = rest ∧ t.dtu.dropResult = s.dtu.dropResult := by
  cases a with
  | command w =>
    obtain ⟨t, ht⟩ := runWord_completes w (s.setPort rest)
    have kept : t.dtu.dropResult = (s.setPort rest).dtu.dropResult := runWord_keeps_digest ht ha
    exact ⟨t, (step_command_unbounded hp).trans ht, runWord_port ht, kept⟩
  | read a => exact ⟨_, step_read hp, rfl, rfl⟩
  | reset => exact absurd rfl ha.1
  | consume => exact ⟨_, step_consume hp, rfl, rfl⟩

theorem run_succ_of_step {s t : State} (h : step s = .next t) (n : Nat) : core.run (n + 1) s = core.run n t := by
  simp only [Host.Core.run, core, h]

/-- A run serves any list of such actions and keeps the digest. -/
theorem run_keeps_digest {s : State} {acts rest : List HostAction} (hp : s.port = acts ++ rest)
    (hacts : ∀ a ∈ acts, keepsDigest a) :
    ∃ t, (∀ n, core.run (acts.length + n) s = core.run n t) ∧ t.port = rest ∧
      t.dtu.dropResult = s.dtu.dropResult := by
  induction acts generalizing s with
  | nil => exact ⟨s, fun n => by rw [List.length_nil, Nat.zero_add], hp, rfl⟩
  | cons a acts ih =>
    obtain ⟨ha, hacts⟩ := List.forall_mem_cons.mp hacts
    obtain ⟨t, hstep, hport, hkept⟩ := step_keeps_digest hp ha
    obtain ⟨u, hrun, hport, hkept'⟩ := ih hport hacts
    refine ⟨u, fun n => ?_, hport, hkept'.trans hkept⟩
    rw [List.length_cons, Nat.add_right_comm, run_succ_of_step hstep, hrun]

theorem step_dtExec {s : State} {rest : List HostAction} (hp : s.port = .command 0x3000 :: rest) :
    ∃ t, step s = .next t ∧ t.port = rest ∧ t.dtu = s.dtu.execute := by
  obtain ⟨u, he, hx⟩ := exec_completes .dtExec (s.setPort rest)
  have hrun : runWord 0x3000 (s.setPort rest) = .next u.tick := (runWord_cmd rfl _).trans hx
  exact ⟨_, (step_command_unbounded hp).trans hrun, runWord_port hrun, he.dtu_eq⟩

end Sys2Proof.Machine

namespace Sys2Proof.Proofs

open Sys2Proof.Machine Sys2Proof.Safety

/-- Settles O18: DT.CLR's equation, field by field. -/
theorem clearStartsAnEmptyDigest : Obligations.ClearStartsAnEmptyDigest := ⟨exec_dtClr, rfl⟩

/-- Settles O19: LEN and W by the store's laws below 19 bytes and at 19; the rest is what the store and `dropResult` leave. -/
theorem pushAppendsOneByte : Obligations.PushAppendsOneByte := by
  refine ⟨fun s b => ⟨_, exec_dtPush b s, fun room => ⟨?len, fun j => Dtu.store_w ..⟩, fun full => ?kept, Dtu.store_last ..,
    rfl, rfl, rfl, rfl, rfl, rfl, rfl, rfl, rfl, rfl⟩, fun b => ?word⟩
  case len => exact (Dtu.store_len ..).trans (if_pos room)
  case kept => simp only [State.tick_dtu, State.setDtu_dtu, Dtu.store_of_full b full]; exact ⟨rfl, rfl⟩
  case word =>
    have packed : 0x2000 ||| b.setWidth 16 = encode (.dtPush b) := by revert b; decide
    rw [packed, decode_encode]

/-- Settles O20: the window inside the digest is composed from W, else the failing path runs. -/
theorem execTruncatesOrFails : Obligations.ExecTruncatesOrFails := by
  refine ⟨fun s o ho hoff hlen hfits => ?_, fun s short => ?_, rfl⟩
  · subst hoff
    rw [exec_dtExec_of_fits ((windowFits_iff _).mpr ⟨hlen, hfits⟩), Dtu.giveResult, ← BitVec.ofNat_toNat, windowValue,
      compose_toNat, windowByte_eq 0 rfl (by omega), windowByte_eq 1 rfl (by omega), windowByte_eq 2 rfl (by omega),
      windowByte_eq 3 rfl (by omega)]
    rfl
  · exact exec_dtExec_of_not_fits ((windowFits_eq_false_iff _).mpr short)

/-- Settles O27: a truncation is a 31-bit window value, and the extreme windows are evaluated. -/
theorem truncationRange : Obligations.TruncationRange := by
  refine ⟨fun D v h => ?_, fun D last b0 b1 b2 b3 hlast h0 h1 h2 h3 => ?_⟩
  · obtain ⟨last, b0, b1, b2, b3, -, rfl⟩ := window_of_truncate h
    exact Nat.le_sub_one_of_lt (compose b0 b1 b2 b3).isLt
  · rw [truncate_of_window ⟨hlast, h0, h1, h2, h3⟩]
    constructor
    · rintro (rfl | rfl) rfl rfl rfl <;> rfl
    · rintro (rfl | rfl) rfl rfl rfl <;> rfl

/-- Settles O28: the digits of the window's value in base 256. -/
theorem truncationComposesBigEndian : Obligations.TruncationComposesBigEndian := by
  intro D v h
  obtain ⟨last, b0, b1, b2, b3, ⟨hlast, h0, h1, h2, h3⟩, rfl⟩ := window_of_truncate h
  have sum := compose_toNat_eq_sum b0 b1 b2 b3
  have := b1.isLt; have := b2.isLt; have := b3.isLt
  exact ⟨last, b0, b1, b2, b3, hlast, h0, h1, h2, h3, by omega, by omega, by omega, by omega, by omega⟩

/-- Settles O29: `truncate_eq_none_iff` with an offset of at most 15. -/
theorem failureSetByLength : Obligations.FailureSetByLength := by
  refine ⟨rfl, fun D pos le => ?_, fun D last ge le hlast => ?_, fun D ge => ?_⟩
  · obtain ⟨last, hlast⟩ := exists_last_of_length_pos pos
    exact truncate_of_short hlast (by omega)
  · rw [truncate_eq_none_iff hlast]; omega
  · obtain ⟨last, hlast⟩ := exists_last_of_length_pos (Nat.lt_of_lt_of_le (by decide) ge)
    rw [ne_eq, truncate_eq_none_iff hlast]; omega

/-- Settles O31: if the window fits, the DTU's window is the digest's; if not, the digest has no truncation. -/
theorem execComputesTruncate : Obligations.ExecComputesTruncate := by
  intro D s h
  cases fits : windowFits s.dtu with
  | true =>
    have value : truncate D = some (windowValue s.dtu).toNat := truncate_of_window (windowIs_of_holdsDigest h fits)
    refine ⟨_, exec_dtExec_of_fits fits, fun v hv => ?_, fun fails => ?_⟩
    · cases value.symm.trans hv
      exact ⟨BitVec.toNat_setWidth_of_le (by decide), rfl, rfl⟩
    · cases value.symm.trans fails
  | false =>
    refine ⟨_, exec_dtExec_of_not_fits fits, fun v hv => ?_, fun _ => ⟨rfl, rfl, rfl, rfl⟩⟩
    cases (truncate_eq_none_of_holdsDigest h fits).symm.trans hv

/-- Settles O33: the actions between keep LEN, LAST and W, and DT.EXEC's effect on the DTU depends on these alone. -/
theorem repeatedExecGivesTheSame : Obligations.RepeatedExecGivesTheSame := by
  intro s acts rest hacts hp
  obtain ⟨t, hstep, hport, hexec⟩ := step_dtExec hp
  obtain ⟨m, hrun, hport, hkept⟩ := run_keeps_digest hport hacts
  obtain ⟨u, hstep', -, hexec'⟩ := step_dtExec hport
  have kept : m.dtu.dropResult = s.dtu.dropResult := by rw [hkept, hexec, Dtu.dropResult_execute]
  have same : u.dtu = s.dtu.execute := hexec'.trans (Dtu.execute_congr kept)
  have digest : u.dtu.dropResult = s.dtu.dropResult := by rw [same, Dtu.dropResult_execute]
  refine ⟨t, u, run_succ_of_step hstep 0, ?run, ?_, ?_, ?_, Dtu.dropResult_eq_iff.mp digest⟩
  case run => rw [run_succ_of_step hstep (acts.length + 1), hrun]; exact run_succ_of_step hstep' 0
  all_goals rw [same, hexec]

/-- Settles O43: `Dtu.after`, `B32e.after` and `B32e.emits` give a command's effect on each unit from that unit alone. -/
theorem unitsAreIndependent : Obligations.UnitsAreIndependent := by
  refine ⟨fun w s s' t t' h h' => ?word, fun i s hi => ?dtuCommand, fun i s hi => ?b32Command⟩
  case word =>
    cases hd : decode w with
    | cmd i =>
      obtain ⟨u, he, rfl⟩ := effect_of_exec (runWord_cmd hd s ▸ h)
      obtain ⟨u', he', rfl⟩ := effect_of_exec (runWord_cmd hd s' ▸ h')
      simp only [State.tick_dtu, State.tick_b32, State.tick_out, he.dtu_eq, he'.dtu_eq, he.b32_eq, he'.b32_eq, he.out_eq,
        he'.out_eq, List.drop_left]
      exact ⟨fun same => by rw [same], fun same => by rw [same]; exact ⟨rfl, rfl⟩⟩
    | illegal v why =>
      cases (runWord_illegal hd s).symm.trans h
      cases (runWord_illegal hd s').symm.trans h'
      exact ⟨id, fun same => ⟨same, by simp⟩⟩
  case dtuCommand =>
    obtain ⟨u, he, hx⟩ := exec_completes i s
    obtain ⟨kept, silent⟩ : s.b32.after i = s.b32 ∧ s.b32.emits i = [] := by
      rcases hi with rfl | rfl | ⟨b, rfl⟩ <;> exact ⟨rfl, rfl⟩
    exact ⟨_, hx, he.b32_eq.trans kept, by rw [State.tick_out, he.out_eq, silent, List.append_nil]⟩
  case b32Command =>
    rcases hi with rfl | ⟨b, rfl⟩
    · exact ⟨_, exec_b32End s, rfl, rfl⟩
    · exact ⟨_, exec_b32Push b s, rfl, rfl⟩

end Sys2Proof.Proofs
end

section
/-! SUPPORT. The B32E's two commands in numbers (R73, R74), what a whole frame emits (R77, R78), and the encoding undone
(R80). -/

namespace Sys2Proof.Machine

open Sys2Proof.Safety

/-! ### B32.PUSH in closed form -/

/-- Group `j` of the low `c` bits of `acc`, counted from the top (R37, R73). -/
def topGroup (acc c j : Nat) : BitVec 5 := BitVec.ofNat 5 (acc / 2 ^ (c - 5 * (j + 1)))

/-- The bits above a group do not reach it: with the topmost group masked off, the groups below it are the same. -/
theorem topGroup_masked {acc c j : Nat} (hj : 5 * (j + 1) ≤ c) :
    topGroup (acc % 2 ^ c) c j = topGroup acc (c + 5) (j + 1) := by
  rw [topGroup, topGroup, show c + 5 - 5 * (j + 1 + 1) = c - 5 * (j + 1) by omega]
  apply BitVec.eq_of_getLsbD_eq
  intro i hi
  have below : c - 5 * (j + 1) + i < c := by omega
  simp [BitVec.getLsbD_ofNat, Nat.testBit_div_two_pow, Nat.testBit_mod_two_pow, Nat.add_comm i, below]

/-- The function's loop emits the accumulator's complete groups, the topmost first (R71). -/
theorem encodeGroups_chars (n acc c : Nat) (hn : c ≤ 5 * n + 4) :
    (encodeGroups n acc c).1 = (List.range (c / 5)).map fun j => lut (topGroup acc c j) := by
  induction n generalizing acc c with
  | zero => rw [encodeGroups, show c / 5 = 0 by omega]; rfl
  | succ n ih =>
    rw [encodeGroups]
    split
    case isFalse short => rw [show c / 5 = 0 by omega]; rfl
    case isTrue long =>
      obtain ⟨c, rfl⟩ : ∃ k, c = k + 5 := ⟨c - 5, by omega⟩
      have first : BitVec.ofNat 5 ((acc >>> c) &&& 0x1F) = topGroup acc (c + 5) 0 := by
        apply BitVec.eq_of_toNat_eq
        rw [show (0x1F : Nat) = 2 ^ 5 - 1 from rfl, Nat.and_two_pow_sub_one_eq_mod]
        simp [topGroup, Nat.shiftRight_eq_div_pow]
      have below : ∀ j ∈ List.range (c / 5), lut (topGroup (acc % 2 ^ c) c j) = lut (topGroup acc (c + 5) (j + 1)) :=
        fun j hj => by rw [topGroup_masked (by rw [List.mem_range] at hj; omega)]
      rw [show (c + 5) / 5 = c / 5 + 1 by omega, List.range_succ_eq_map, List.map_cons, List.map_map]
      simp only [Nat.add_sub_cancel, first, Nat.one_shiftLeft, Nat.and_two_pow_sub_one_eq_mod, ih _ c (by omega)]
      rw [List.map_congr_left below]
      rfl

/-- B32.PUSH's accumulator `V` (R73). -/
def B32e.accumulator (u : B32e) (b : Byte) : Nat := u.p.toNat * 256 + b.toNat

theorem B32e.shift_or_eq_accumulator (u : B32e) (b : Byte) : (u.p.toNat <<< 8) ||| b.toNat = u.accumulator b := by
  rw [← Nat.shiftLeft_add_eq_or_of_lt b.isLt, Nat.shiftLeft_eq]; rfl

/-- The tokens of a B32.PUSH (R73). -/
theorem B32e.groups_tokens (u : B32e) (b : Byte) :
    (u.groups b).1 = (List.range ((u.cnt.toNat + 8) / 5)).map fun j =>
      charToken (lut (topGroup (u.accumulator b) (u.cnt.toNat + 8) j)) := by
  have hc := u.cnt.isLt
  obtain ⟨out, -, -⟩ := B32e.groups_eq u b
  rw [out, shift_or_eq_accumulator, encodeGroups_chars _ _ _ (by omega), List.map_map]
  rfl

theorem B32e.groups_length (u : B32e) (b : Byte) : (u.groups b).1.length = (u.cnt.toNat + 8) / 5 := by
  rw [groups_tokens, List.length_map, List.length_range]

theorem B32e.shiftIn_cnt (u : B32e) (b : Byte) : (u.shiftIn b).cnt = BitVec.ofNat 3 ((u.cnt.toNat + 8) % 5) := by
  obtain ⟨-, -, cnt⟩ := B32e.groups_eq u b
  rw [← cnt, BitVec.ofNat_toNat, BitVec.setWidth_eq]

theorem B32e.shiftIn_p (u : B32e) (b : Byte) :
    (u.shiftIn b).p = BitVec.ofNat 4 (u.accumulator b % 2 ^ ((u.cnt.toNat + 8) % 5)) := by
  have hc := u.cnt.isLt
  obtain ⟨-, p, -⟩ := B32e.groups_eq u b
  obtain ⟨-, -, -, masked⟩ := encodeGroups_rest 3 ((u.p.toNat <<< 8) ||| b.toNat) (u.cnt.toNat + 8) (by omega)
  rw [← shift_or_eq_accumulator, ← masked (by omega), ← p, BitVec.ofNat_toNat, BitVec.setWidth_eq]

/-- What is pending after a B32.PUSH (R73). -/
theorem B32e.shiftIn_eq (u : B32e) (b : Byte) :
    u.shiftIn b =
      { p := BitVec.ofNat 4 (u.accumulator b % 2 ^ ((u.cnt.toNat + 8) % 5)),
        cnt := BitVec.ofNat 3 ((u.cnt.toNat + 8) % 5) } := by
  rw [← shiftIn_p, ← shiftIn_cnt]

/-! ### B32.END's last character -/

theorem B32e.flush_of_cnt_zero {u : B32e} (h : u.cnt = 0) : u.flush = [] := by
  rw [B32e.flush, h]; rfl

theorem B32e.flush_of_cnt_pos {u : B32e} (h : 0 < u.cnt.toNat) :
    u.flush = [charToken (lut (BitVec.ofNat 5 (u.p.toNat * 2 ^ (5 - u.cnt.toNat))))] := by
  have index : u.p.setWidth 5 <<< (5 - u.cnt.toNat) = BitVec.ofNat 5 (u.p.toNat * 2 ^ (5 - u.cnt.toNat)) := by
    apply BitVec.eq_of_toNat_eq; simp [Nat.shiftLeft_eq]
  rw [B32e.flush, if_pos h, index]

theorem exec_b32End_of_cnt_zero {s : State} (h : s.b32.cnt = 0) :
    exec .b32End s = .next ((s.setB32 B32e.reset).emit [eofToken]).tick := by
  rw [exec_b32End, B32e.flush_of_cnt_zero h, List.nil_append]

theorem exec_b32End_of_cnt_pos {s : State} (h : 0 < s.b32.cnt.toNat) :
    exec .b32End s = .next ((s.setB32 B32e.reset).emit
      [charToken (lut (BitVec.ofNat 5 (s.b32.p.toNat * 2 ^ (5 - s.b32.cnt.toNat)))), eofToken]).tick := by
  rw [exec_b32End, B32e.flush_of_cnt_pos h, List.singleton_append]

/-! ### The tokens a command emits (R79) -/

/-- Every token a command emits is EOF or one of the 32 characters. -/
theorem B32e.eof_or_char_of_emits {u : B32e} {i : Instr} {tok : Token} (h : tok ∈ u.emits i) :
    tok = 0x100 ∨ ∃ c ∈ alphabet, tok = charToken c := by
  cases i with
  | b32Push b =>
    rw [B32e.emits, B32e.groups_tokens, List.mem_map] at h
    obtain ⟨j, -, rfl⟩ := h
    exact .inr ⟨_, lut_mem_alphabet _, rfl⟩
  | b32End =>
    rw [B32e.emits, List.mem_append, List.mem_singleton, B32e.flush] at h
    obtain pending | rfl := h
    · split at pending
      · exact .inr ⟨_, lut_mem_alphabet _, List.mem_singleton.mp pending⟩
      · cases pending
    · exact .inl rfl
  | nop | dtClr | dtPush | dtExec | errAck => cases h

theorem runWord_emits {w : Word} {s t : State} (h : runWord w s = .next t) :
    t.out = s.out ∨ ∃ i, t.out = s.out ++ s.b32.emits i := by
  obtain ⟨u, rfl, ⟨i, -, he⟩ | ⟨-, rfl⟩⟩ := runWord_cases h
  · exact .inr ⟨i, he.out_eq⟩
  · exact .inl rfl

/-- A step emits what one command emits, or nothing. -/
theorem step_emits {s t : State} (h : step s = .next t) : t.out = s.out ∨ ∃ i, t.out = s.out ++ s.b32.emits i := by
  cases served_of_stepWith h with
  | ran _ hr => simpa using runWord_emits hr
  | held => exact .inl (hold_out ..)
  | idle | read | reset | consumed => exact .inl rfl

theorem mem_alphabet_of_encode32 {F : List Byte} {c : Byte} (h : c ∈ encode32 F) : c ∈ alphabet := by
  rw [encode32_eq_cutGroups, List.mem_map] at h
  obtain ⟨i, -, rfl⟩ := h
  exact lut_mem_alphabet i

/-! ### A frame run from a boundary (R72, R77) -/

theorem execAll_append {is js : List Instr} {s t : State} (h : execAll is s = .next t) :
    execAll (is ++ js) s = execAll js t := by
  induction is generalizing s with
  | nil => cases h; rfl
  | cons i is ih =>
    obtain ⟨u, -, hx⟩ := exec_completes i s
    simp only [execAll, hx, List.cons_append] at h ⊢
    exact ih h

theorem execAll_singleton (i : Instr) (s : State) : execAll [i] s = exec i s := by
  obtain ⟨u, -, hx⟩ := exec_completes i s
  simp only [execAll, hx]

/-- `t` is `s`, at a frame boundary, with the bytes of `F` pushed: the frame is open and nothing but P, CNT, k and OUT is
written. -/
structure Pushed (F : List Byte) (s t : State) : Prop where
  frame : HoldsFrame F t
  out : t.out = s.out ++ openTokens F
  dtu : t.dtu = s.dtu
  errcode : t.errcode = s.errcode
  k : t.k = s.k + F.length
  host : SameHostSide s t

theorem pushed_nil {s : State} (hp : s.b32.p = 0) (hcnt : s.b32.cnt = 0) : Pushed [] s s :=
  { frame := holdsFrame_nil (show s.b32 = ⟨0, 0⟩ by rw [← hp, ← hcnt])
    out := (List.append_nil _).symm
    dtu := rfl, errcode := rfl, k := rfl, host := ⟨rfl, rfl, rfl⟩ }

/-- One more B32.PUSH. -/
theorem Pushed.push {F : List Byte} {s t : State} (h : Pushed F s t) (b : Byte) :
    ∃ u, exec (.b32Push b) t = .next u ∧ Pushed (F ++ [b]) s u := by
  obtain ⟨frame, out, dtu, errcode, k, host⟩ := h
  have effect := Effect.b32Push b t
  exact ⟨_, exec_b32Push b t,
    { frame := holdsFrame_congr (effect.holdsFrame frame) rfl
      out := effect.openTokens_out frame out nofun
      dtu := dtu, errcode := errcode
      k := by simp [k, Nat.add_assoc]
      host := host }⟩

/-- A frame's pushes, from a boundary. -/
theorem execAll_pushes (F : List Byte) {s : State} (hp : s.b32.p = 0) (hcnt : s.b32.cnt = 0) :
    ∃ t, execAll (F.map .b32Push) s = .next t ∧ Pushed F s t := by
  induction F using List.reverseRecOn with
  | nil => exact ⟨s, rfl, pushed_nil hp hcnt⟩
  | append_singleton F b ih =>
    obtain ⟨t, run, pushed⟩ := ih
    obtain ⟨u, last, pushed⟩ := pushed.push b
    refine ⟨u, ?_, pushed⟩
    rw [List.map_append, execAll_append run, List.map_singleton, execAll_singleton, last]

theorem encode32_length (F : List Byte) : (encode32 F).length = (8 * F.length + 4) / 5 := by
  rw [encode32_eq_cutGroups, List.length_map, cutGroups_length, frameBits_length]

theorem frameTokens_length (F : List Byte) :
    (frameTokens F).length = 8 * F.length / 5 + (if 8 * F.length % 5 ≠ 0 then 1 else 0) + 1 := by
  rw [frameTokens, List.length_append, List.length_map, encode32_length, List.length_singleton]
  split <;> omega

/-! ### The encoding undone (R80) -/

theorem natBits_groupIndex (a b c d e : Bool) : natBits 5 (groupIndex a b c d e).toNat = [a, b, c, d, e] := by
  revert a b c d e; decide

/-- The groups cut from a bit string spell it, and then the fill of the last one. -/
theorem prefix_groups_bits (l : List Bool) : l <+: (cutGroups l).flatMap fun g => natBits 5 g.toNat := by
  induction l using cutGroups.induct with
  | case1 a b c d e rest ih =>
    rw [cutGroups, List.flatMap_cons, natBits_groupIndex]
    exact (List.prefix_append_right_inj [a, b, c, d, e]).mpr ih
  | _ =>
    simp [cutGroups, natBits_groupIndex]

/-- Bit strings of one length with the same groups are equal. -/
theorem cutGroups_injective_of_length {l r : List Bool} (hlen : l.length = r.length) (h : cutGroups l = cutGroups r) :
    l = r := by
  have pl := prefix_groups_bits l
  have pr := prefix_groups_bits r
  rw [h] at pl
  exact (List.prefix_of_prefix_length_le pl pr hlen.le).eq_of_length hlen

theorem byteBits_injective : Function.Injective byteBits := by
  intro b c h
  have value (b : Byte) : bitsValue (byteBits b) = b.toNat := by
    have bits : natBits 8 b.toNat = byteBits b := by simpa [natBits] using natBits_append_byte 0 0 b
    rw [← bits, bitsValue_natBits, Nat.mod_eq_of_lt b.isLt]
  apply BitVec.eq_of_toNat_eq
  rw [← value, h, value]

theorem frameBits_injective : Function.Injective frameBits := by
  intro F G h
  induction F generalizing G with
  | nil =>
    cases G with
    | nil => rfl
    | cons c G => cases h
  | cons b F ih =>
    cases G with
    | nil => cases h
    | cons c G =>
      obtain ⟨first, rest⟩ := List.append_inj h rfl
      rw [byteBits_injective first, ih rest]

/-- The text's length gives the frame's (R78, R80). -/
theorem length_eq_of_encode32_eq {F G : List Byte} (h : encode32 F = encode32 G) : F.length = G.length := by
  have := congrArg List.length h
  rw [encode32_length, encode32_length] at this
  omega

theorem encode32_injective : Function.Injective encode32 := by
  intro F G h
  have hlen : (frameBits F).length = (frameBits G).length := by
    rw [frameBits_length, frameBits_length, length_eq_of_encode32_eq h]
  rw [encode32_eq_cutGroups, encode32_eq_cutGroups] at h
  exact frameBits_injective (cutGroups_injective_of_length hlen (List.map_injective_iff.mpr (fun _ _ => lut_injective) h))

end Sys2Proof.Machine

namespace Sys2Proof.Proofs

open Sys2Proof.Machine Sys2Proof.Safety

/-- Settles O21: the machine's loop in closed form, by `encodeGroups_chars`. -/
theorem pushEmitsEveryCompleteGroup : Obligations.PushEmitsEveryCompleteGroup := by
  refine ⟨fun s b => ?_, fun b => ?word⟩
  · rw [exec_b32Push, B32e.shiftIn_eq, B32e.groups_tokens]; rfl
  case word =>
    have packed : 0x4000 ||| b.setWidth 16 = encode (.b32Push b) := by revert b; decide
    rw [packed, decode_encode]

/-- Settles O22: B32.END's two equations, by whether bits are pending. -/
theorem endFlushesAndClosesTheFrame : Obligations.EndFlushesAndClosesTheFrame :=
  ⟨fun _ empty => exec_b32End_of_cnt_zero empty, fun _ pending _ => exec_b32End_of_cnt_pos pending, rfl⟩

/-- Settles O34: the 32 entries, each evaluated. -/
theorem lookupTableEntries : Obligations.LookupTableEntries := ⟨rfl, by decide⟩

/-- Settles O36: the pushes emit the complete groups, and the frame's other tokens come from B32.END. -/
theorem encodedLength : Obligations.EncodedLength := by
  refine ⟨fun F s hp hcnt => ?_, fun F => ?_⟩
  · obtain ⟨t, run, pushed⟩ := execAll_pushes F hp hcnt
    have total := congrArg List.length ((Effect.b32End t).frameTokens_out pushed.frame pushed.out)
    have opened : t.out.length = s.out.length + 8 * F.length / 5 := by
      rw [pushed.out, List.length_append, openTokens_length]
    refine ⟨t, _, run, opened, exec_b32End t, ?_⟩
    rw [List.length_append, frameTokens_length] at total
    rw [State.tick_out, total, opened]
    omega
  · refine ⟨encode32_length F, ?_, ?_, ?_, ?_, ?_⟩
    all_goals intro k hk; rw [encode32_length]; omega

/-- Settles O37: a step emits one command's tokens or none, and every character is an entry of the table. -/
theorem onlyAlphabetCharactersAreEmitted : Obligations.OnlyAlphabetCharactersAreEmitted := by
  refine ⟨fun s t h tok mem => ?_, fun F c => mem_alphabet_of_encode32, by decide⟩
  obtain same | ⟨i, out⟩ := step_emits h
  · rw [same, List.drop_length] at mem; cases mem
  · rw [out, List.drop_left] at mem; exact B32e.eof_or_char_of_emits mem

/-- Settles O38: the text's length gives the number of bytes, and the groups spell the bits. -/
theorem encodeIsInjective : Obligations.EncodeIsInjective := fun _ _ h => encode32_injective h

/-- Settles O39: `(CNT + 8) / 5` characters and `(CNT + 8) % 5` pending bits, at each CNT. -/
theorem tokensPerCommandByCount : Obligations.TokensPerCommandByCount := by
  refine ⟨fun s b => ?push, fun s => ⟨_, exec_b32End s, fun empty => ?_, fun pending => ?_⟩⟩
  case push =>
    obtain ⟨t, run, length, cnt⟩ : ∃ t, exec (.b32Push b) s = .next t ∧
        t.out.length = s.out.length + (s.b32.cnt.toNat + 8) / 5 ∧
        t.b32.cnt = BitVec.ofNat 3 ((s.b32.cnt.toNat + 8) % 5) :=
      ⟨_, exec_b32Push b s, by simp [B32e.groups_length], B32e.shiftIn_cnt ..⟩
    refine ⟨t, run, ?_, ?_, ?_, ?_, ?_⟩
    all_goals intro h; rw [length, cnt, h]; exact ⟨rfl, rfl⟩
  · rw [B32e.flush_of_cnt_zero empty]; rfl
  · have pos : 0 < s.b32.cnt.toNat := Nat.pos_of_ne_zero fun zero => pending (BitVec.eq_of_toNat_eq zero)
    rw [B32e.flush_of_cnt_pos pos]
    exact ⟨_, lut_mem_alphabet _, rfl⟩

/-- Settles O41: the pushes leave the frame open with its complete groups emitted, and B32.END emits the rest. -/
theorem frameIsEncoded : Obligations.FrameIsEncoded := by
  intro F s hp hcnt
  obtain ⟨t, run, frame, out, dtu, errcode, k, host⟩ := execAll_pushes F hp hcnt
  have tokens := (Effect.b32End t).frameTokens_out frame out
  have finish : execAll (expandFrame F) s = exec .b32End t := by
    rw [expandFrame, execAll_append run, execAll_singleton]
  exact ⟨_, finish.trans (exec_b32End t), tokens.trans (List.append_assoc ..).symm, rfl, rfl, dtu, errcode,
    congrArg (· + 1) k, host⟩

/-- Settles O42: at a boundary nothing is pending. -/
theorem emptyFrameIsEofAlone : Obligations.EmptyFrameIsEofAlone :=
  ⟨rfl, fun _ _ hcnt => ⟨_, exec_b32End_of_cnt_zero hcnt, rfl⟩⟩

end Sys2Proof.Proofs
end

section
/-! SUPPORT. OP 0 is NOP's alone (R52), so of the words with OP 0 only NOP's is legal. -/

namespace Sys2Proof

/-- No other command's word has OP 0. -/
theorem eq_nop_of_opField_encode {i : Instr} (h : opField (encode i) = 0) : i = .nop := by
  cases i with
  | nop => rfl
  | _ => rw [encode, opField_pack] at h; cases h

/-- A word that decodes to no command is illegal (R54). -/
theorem exists_illegal_of_decode_ne_cmd {w : Word} (h : ∀ i, decode w ≠ .cmd i) : ∃ why, decode w = .illegal w why := by
  cases hd : decode w with
  | cmd i => exact absurd hd (h i)
  | illegal v why => exact ⟨why, by rw [eq_of_decode_illegal hd]⟩

end Sys2Proof

namespace Sys2Proof.Proofs

open Sys2Proof.Machine

/-- Settles O17: NOP's equation; a command decoded from a word with OP 0 is NOP, whose one word is 0. -/
theorem nopOnlyAdvancesTheIndex : Obligations.NopOnlyAdvancesTheIndex := by
  refine ⟨exec_nop, rfl, fun w hop hne => exists_illegal_of_decode_ne_cmd fun i hd => ?_⟩
  have hw : w = encode i := decode_eq_cmd_iff.mp hd
  have hi : i = .nop := eq_nop_of_opField_encode (hw ▸ hop)
  exact hne (hw.trans (congrArg encode hi))

/-- Settles O23: ERR.ACK's equation is the acknowledged state with the index advanced. -/
theorem acknowledgeClearsTheError : Obligations.AcknowledgeClearsTheError := ⟨exec_errAck, rfl⟩

end Sys2Proof.Proofs
end

section
/-! SUPPORT. Who raises INVALID_INPUT (R93): a failing DT.EXEC alone, and which digests make it fail. -/

namespace Sys2Proof.Machine

open Sys2Proof.Safety

/-- The two ways a digest has no truncation (R60, R69). -/
theorem truncate_eq_none_iff_nil_or_short (D : List Byte) :
    truncate D = none ↔ D = [] ∨ ∃ last, D.getLast? = some last ∧ D.length < last.toNat % 16 + 4 := by
  cases hlast : D.getLast? with
  | none =>
    obtain rfl := List.getLast?_eq_none_iff.mp hlast
    exact iff_of_true rfl (.inl rfl)
  | some last =>
    have nonempty : D ≠ [] := by rintro rfl; cases hlast
    simp [truncate_eq_none_iff hlast, nonempty]

/-- DT.EXEC's bounds check fails on exactly the held digests that have no truncation (R65, R66). -/
theorem windowFits_eq_false_iff_truncate {D : List Byte} {s : State} (h : HoldsDigest D s) :
    windowFits s.dtu = false ↔ truncate D = none := by
  refine ⟨truncate_eq_none_of_holdsDigest h, fun fails => Bool.eq_false_iff.mpr fun fits => ?_⟩
  rw [truncate_of_window (windowIs_of_holdsDigest h fits)] at fails
  cases fails

/-- With no error standing, an error's code is recorded (R24). -/
theorem raiseError_errcode_of_errcode_zero {s : State} (e : ErrorCode) (noError : s.errcode = 0) :
    (raiseError e s).errcode = e.code := by
  rw [raiseError_errcode, noError, firstError_zero]

/-- With no error standing, the one effect that leaves code 1 is DT.EXEC's failing path. -/
theorem Effect.errcode_eq_one_iff {i : Instr} {s u : State} (he : Effect i s u) (noError : s.errcode = 0) :
    u.errcode = 1 ↔ i = .dtExec ∧ windowFits s.dtu = false := by
  cases he with
  | dtExecValue fits => simp [noError, fits]
  | dtExecFails short => exact iff_of_true (raiseError_errcode_of_errcode_zero _ noError) ⟨rfl, short⟩
  | _ => simp [noError]

/-- With no error standing, the one word that leaves code 1 is DT.EXEC's, on a window that does not fit (R93). -/
theorem runWord_errcode_eq_one_iff {w : Word} {s t : State} (h : runWord w s = .next t) (noError : s.errcode = 0) :
    t.errcode = 1 ↔ decode w = .cmd .dtExec ∧ windowFits s.dtu = false := by
  obtain ⟨u, rfl, ⟨i, hd, he⟩ | ⟨⟨v, why, hd⟩, rfl⟩⟩ := runWord_cases h
  · rw [State.tick_errcode, he.errcode_eq_one_iff noError, hd, Decoded.cmd.injEq]
  · rw [State.tick_errcode, raiseError_errcode_of_errcode_zero _ noError]
    simp [hd, ErrorCode.code]

/-- A failing DT.EXEC leaves the failed result (R65, R95). -/
theorem runWord_dtExec_dtu_of_not_fits {w : Word} {s t : State} (h : runWord w s = .next t)
    (hd : decode w = .cmd .dtExec) (short : windowFits s.dtu = false) : t.dtu = s.dtu.failResult := by
  rw [runWord_cmd hd, exec_dtExec_of_not_fits short] at h
  cases h
  rfl

end Sys2Proof.Machine

namespace Sys2Proof.Proofs

open Sys2Proof.Machine Sys2Proof.Safety

/-- Settles O26: code 1 comes from DT.EXEC's failing path alone, which a held digest takes exactly when it has no
truncation, and that path leaves the failed result. -/
theorem onlyExecRaisesInvalidInput : Obligations.OnlyExecRaisesInvalidInput := by
  intro w D s t holds noError h
  have raised := runWord_errcode_eq_one_iff h noError
  refine ⟨?_, fun one => ?_⟩
  · rw [raised, windowFits_eq_false_iff_truncate holds, truncate_eq_none_iff_nil_or_short]
  · obtain ⟨hd, short⟩ := raised.mp one
    rw [runWord_dtExec_dtu_of_not_fits h hd short]
    exact ⟨rfl, rfl, rfl⟩

/-- Settles O6: the word runs off the port, and an illegal one is the recorded error with the index advanced. -/
theorem illegalWordOnlyRecordsTheError : Obligations.IllegalWordOnlyRecordsTheError := by
  intro s w v why rest hp hd
  rw [step_command_unbounded hp, runWord_illegal hd]
  rfl

end Sys2Proof.Proofs
end

section
/-! SUPPORT. The first command after reset (R106): the digest is empty and the encoder stands at a frame boundary. -/

namespace Sys2Proof.Proofs

open Sys2Proof.Machine

/-- Settles O10: every command completes; DT.EXEC takes its failing path because LEN is 0, and B32.END has no pending
bits to flush. -/
theorem nothingNeedsInitialising : Obligations.NothingNeedsInitialising := by
  have short : windowFits State.reset.dtu = false := (windowFits_eq_false_iff _).mpr (.inl rfl)
  have boundary : State.reset.b32.cnt = 0 := rfl
  refine ⟨fun i => ?_, ⟨_, exec_dtExec_of_not_fits short, ?_, rfl, rfl, rfl⟩, ⟨_, exec_b32End_of_cnt_zero boundary, rfl⟩⟩
  · obtain ⟨u, -, completes⟩ := exec_completes i State.reset
    exact ⟨_, completes⟩
  · have noError : (State.reset.setDtu State.reset.dtu.failResult).errcode = 0 := rfl
    exact raiseError_errcode_of_errcode_zero .invalidInput noError

end Sys2Proof.Proofs
end

section
/-! SUPPORT. Which words are commands, by the three fields (R48 to R53). -/

namespace Sys2Proof

theorem opField_toNat (w : Word) : (opField w).toNat = w.toNat / 2 ^ 12 := by
  have := w.isLt
  simp only [opField, BitVec.extractLsb'_toNat, Nat.shiftRight_eq_div_pow]
  omega

theorem rsvField_toNat (w : Word) : (rsvField w).toNat = w.toNat / 2 ^ 8 % 2 ^ 4 := by
  simp only [rsvField, BitVec.extractLsb'_toNat, Nat.shiftRight_eq_div_pow]

theorem imm8Field_toNat (w : Word) : (imm8Field w).toNat = w.toNat % 2 ^ 8 := by
  simp only [imm8Field, BitVec.extractLsb'_toNat, Nat.shiftRight_zero]

/-- With RSV and IMM8 zero, every OP of the table decodes to a command. -/
theorem exists_cmd_of_op_le {op : BitVec 4} (hop : op ≤ 6) : ∃ i, decode (packWord op 0) = .cmd i := by
  have table : ∀ op : BitVec 4, op ≤ 6 →
      ∃ i ∈ [.nop, .dtClr, .dtPush 0, .dtExec, .b32Push 0, .b32End, .errAck], decode (packWord op 0) = .cmd i := by decide
  obtain ⟨i, -, hi⟩ := table op hop
  exact ⟨i, hi⟩

/-- A word is a command exactly when RSV is 0, OP is in the table, and IMM8 is 0 unless the command has an operand. -/
theorem exists_cmd_iff (w : Word) :
    (∃ i, decode w = .cmd i) ↔
      rsvField w = 0 ∧ opField w ≤ 6 ∧ (opField w = 2 ∨ opField w = 4 ∨ imm8Field w = 0) := by
  constructor
  · rintro ⟨i, hd⟩
    obtain rfl := decode_eq_cmd_iff.mp hd
    cases i <;> simp [encode]
  · rintro ⟨hrsv, hop, himm⟩
    rw [← packWord_fields w hrsv]
    obtain hop2 | hop4 | himm := himm
    · exact ⟨.dtPush (imm8Field w), by rw [hop2]; exact decode_encode (.dtPush _)⟩
    · exact ⟨.b32Push (imm8Field w), by rw [hop4]; exact decode_encode (.b32Push _)⟩
    · rw [himm]; exact exists_cmd_of_op_le hop

theorem exists_illegal_iff (w : Word) : (∃ why, decode w = .illegal w why) ↔ ¬ ∃ i, decode w = .cmd i := by
  constructor
  · rintro ⟨why, hd⟩ ⟨i, hi⟩
    cases hd.symm.trans hi
  · intro none
    exact exists_illegal_of_decode_ne_cmd fun i hi => none ⟨i, hi⟩

end Sys2Proof

namespace Sys2Proof.Proofs

/-- Settles O1: each word evaluated. -/
theorem tableWordsDecode : Obligations.TableWordsDecode := by
  refine ⟨rfl, rfl, rfl, rfl, rfl, rfl, rfl, rfl, rfl, rfl⟩

/-- Settles O2: a command's word decodes to it, and a command is decoded from its own word only. -/
theorem decodeInvertsEncode : Obligations.DecodeInvertsEncode :=
  ⟨decode_encode, fun _ _ => decode_eq_cmd_iff.mp⟩

/-- Settles O4: the fields' conditions of `exists_cmd_iff`, read as numbers. -/
theorem illegalWordsAreThree : Obligations.IllegalWordsAreThree := by
  refine ⟨fun w => ?_, fun w => ?_⟩
  · have op := opField_toNat w
    have rsv := rsvField_toNat w
    have imm := imm8Field_toNat w
    rw [exists_illegal_iff, exists_cmd_iff, ← op, ← rsv, ← imm]
    simp only [BitVec.le_def, ← BitVec.toNat_inj, List.mem_cons, List.not_mem_nil, or_false,
      BitVec.ofNat_eq_ofNat, BitVec.toNat_ofNat]
    omega
  · rw [exists_cmd_iff]
    simp [Word.legal, Word.rsvOk, Word.opOk, Word.immOk, rsvField, opField, imm8Field, and_assoc, or_assoc]

end Sys2Proof.Proofs
end

section
/-! SUPPORT. What a word leaves alone, that every step answers, and the registers' layouts. -/

namespace Sys2Proof.Machine

open Sys2Proof.Safety

theorem runWord_sameHostSide {w : Word} {s t : State} (h : runWord w s = .next t) : SameHostSide s t := by
  obtain ⟨u, rfl, ⟨i, -, he⟩ | ⟨-, rfl⟩⟩ := runWord_cases h
  · exact he.sameHostSide
  · exact ⟨rfl, rfl, rfl⟩

/-- A word that runs to `t` takes effect, or is held where `t` would overflow the buffer (R110). -/
theorem present_of_runWord {depth : Option Nat} {w : Word} {s t : State} (h : runWord w s = .next t) :
    present depth w s = .next (if overflows depth s t then hold w s else t) := by
  rw [present, h]
  exact (apply_ite Host.Outcome.next ..).symm

/-- Every step answers, at every output depth (R87). -/
theorem stepWith_completes (depth : Option Nat) (s : State) : ∃ t, stepWith depth s = .next t := by
  cases hp : s.port with
  | nil => exact ⟨_, step_nil hp⟩
  | cons a rest =>
    cases a with
    | command w =>
      obtain ⟨t, ht⟩ := runWord_completes w (s.setPort rest)
      exact ⟨_, (step_command hp).trans (present_of_runWord ht)⟩
    | read a => exact ⟨_, step_read hp⟩
    | reset => exact ⟨_, step_reset hp⟩
    | consume => exact ⟨_, step_consume hp⟩

/-- DT_RESULT reads as the stored value without its bit 31 (R26). -/
theorem regRead_result_toNat (s : State) : (regRead 0 s).toNat = s.dtu.result.toNat % 2 ^ 31 := by
  rw [regRead_result, BitVec.toNat_setWidth_of_le (by decide), BitVec.extractLsb'_toNat, Nat.shiftRight_zero]

theorem regRead_acc_toNat (s : State) : (regRead 2 s).toNat = s.b32.p.toNat := by
  rw [regRead_acc, BitVec.toNat_setWidth_of_le (by decide)]

end Sys2Proof.Machine

namespace Sys2Proof.Proofs

open Sys2Proof.Machine Sys2Proof.Safety

/-- Settles O5: an unbounded buffer holds no word, and a legal word runs its command. -/
theorem stepRunsTheDecodedCommand : Obligations.StepRunsTheDecodedCommand := by
  intro s w i rest hp hd
  rw [step_command_unbounded hp, runWord_cmd hd]
  rfl

/-- Settles O7, the unbounded depth being one of the depths of `stepWith_completes`. -/
theorem everyStepAnswersANextState : Obligations.EveryStepAnswersANextState := stepWith_completes none

/-- Settles O8: `serve` answers the state itself. -/
theorem idleChangesNothing : Obligations.IdleChangesNothing := fun _ => step_nil

/-- Settles O13: `hostRead` appends the answer and writes nothing else. -/
theorem registerReadOnlyAnswers : Obligations.RegisterReadOnlyAnswers := fun _ _ _ => step_read

/-- Settles O15: each register is its item widened by zeros. -/
theorem otherRegisterLayouts : Obligations.OtherRegisterLayouts := by
  intro s
  rw [regRead_result, regRead_acc, regRead_reserved]
  refine ⟨?_, ?_, ?_, ?_, rfl⟩
  · apply BitVec.eq_of_getLsbD_eq; intro i hi; simp [hi]; omega
  · simp
  · apply BitVec.eq_of_getLsbD_eq; intro i hi; simp [hi]; omega
  · apply BitVec.eq_of_getLsbD_eq; intro i hi; simp [hi]

/-- Settles O16: the registers read what is stored, which the invariant makes 0 where no value stands. -/
theorem registersReadZeroWithoutAValue : Obligations.RegistersReadZeroWithoutAValue := by
  intro s inv
  have stored : regRead 0 s = s.dtu.result := by
    apply BitVec.eq_of_toNat_eq
    rw [regRead_result_toNat, Nat.mod_eq_of_lt inv.resultRange]
  have masked : (regRead 2 s).toNat < 2 ^ s.b32.cnt.toNat := regRead_acc_toNat s ▸ inv.pendingMasked
  refine ⟨fun noValue => stored.trans (inv.noStaleResult noValue), stored, fun empty => ?_, masked⟩
  rw [empty] at masked
  exact BitVec.eq_of_toNat_eq (Nat.lt_one_iff.mp masked)

/-- Settles O24: the items each of a command's effects writes. -/
theorem everyCommandKeepsWhatItDoesNotWrite : Obligations.EveryCommandKeepsWhatItDoesNotWrite := by
  intro i s
  obtain ⟨u, he, hx⟩ := exec_completes i s
  refine ⟨_, hx, congrArg (· + 1) he.k_eq, he.sameHostSide, ?_⟩
  cases he <;> simp

end Sys2Proof.Proofs
end

section
/-! SUPPORT. The invariant by units: what it asks of the DTU, of the B32E and of the output stream, each kept by every
command. -/

namespace Sys2Proof.Machine

open Sys2Proof.Safety

/-- The DTU's part of the invariant (R14, R18, R19, R20). -/
structure Dtu.Inv (d : Dtu) : Prop where
  lenRange : d.len.toNat ≤ 19
  resultRange : d.result.toNat < 2 ^ 31
  noStaleResult : d.rvalid = false → d.result = 0
  flagsExclusive : ¬ (d.rvalid = true ∧ d.invalid = true)
  validIsCurrent : d.rvalid = true → windowFits d = true ∧ d.result = (windowValue d).setWidth 32
  invalidIsCurrent : d.invalid = true → windowFits d = false

/-- The B32E's part of the invariant (R21, R22). -/
structure B32e.Inv (u : B32e) : Prop where
  cntRange : u.cnt.toNat ≤ 4
  pendingMasked : u.p.toNat < 2 ^ u.cnt.toNat

theorem blockInv_iff (s : State) :
    BlockInv s ↔ s.dtu.Inv ∧ s.b32.Inv ∧ s.errcode.toNat ≤ 2 ∧ (∀ t ∈ s.out, legalToken t) ∧ s.consumed ≤ s.out.length :=
  ⟨fun h => ⟨{ h with }, { h with }, h.errcodeRange, h.tokensLegal, h.consumedBound⟩,
    fun ⟨dtu, b32, errcode, out, consumed⟩ =>
      { dtu, b32 with errcodeRange := errcode, tokensLegal := out, consumedBound := consumed }⟩

/-- With no result and no failure standing, only LEN is bounded. -/
theorem Dtu.inv_dropResult {d : Dtu} (len : d.len.toNat ≤ 19) : d.dropResult.Inv where
  lenRange := len
  resultRange := by simp
  noStaleResult _ := rfl
  flagsExclusive := nofun
  validIsCurrent := nofun
  invalidIsCurrent := nofun

theorem Dtu.inv_reset : Dtu.reset.Inv := inv_dropResult (d := Dtu.reset) (Nat.zero_le _)

theorem Dtu.inv_execute {d : Dtu} (len : d.len.toNat ≤ 19) : d.execute.Inv := by
  unfold Dtu.execute
  split
  case isTrue fits =>
    exact {
      lenRange := len
      resultRange := (BitVec.toNat_setWidth_of_le (by decide)).trans_lt (windowValue d).isLt
      noStaleResult := nofun
      flagsExclusive := nofun
      validIsCurrent := fun _ => ⟨fits, rfl⟩
      invalidIsCurrent := nofun }
  case isFalse short =>
    exact {
      lenRange := len
      resultRange := by simp
      noStaleResult := fun _ => rfl
      flagsExclusive := nofun
      validIsCurrent := nofun
      invalidIsCurrent := fun _ => Bool.eq_false_iff.mpr short }

theorem Dtu.Inv.after {d : Dtu} (h : d.Inv) (i : Instr) : (d.after i).Inv := by
  cases i with
  | dtClr => exact inv_dropResult (Nat.zero_le _)
  | dtPush b =>
    have len := h.lenRange
    exact inv_dropResult (by rw [Dtu.store_len]; split <;> omega)
  | dtExec => exact inv_execute h.lenRange
  | nop | b32Push | b32End | errAck => exact h

theorem B32e.inv_reset : B32e.reset.Inv := ⟨by decide, by decide⟩

theorem B32e.inv_shiftIn (u : B32e) (b : Byte) : (u.shiftIn b).Inv := by
  obtain ⟨-, -, cnt⟩ := u.groups_eq b
  exact ⟨by rw [cnt]; omega, shiftIn_p_lt u b⟩

theorem B32e.Inv.after {u : B32e} (h : u.Inv) (i : Instr) : (u.after i).Inv := by
  cases i with
  | b32Push b => exact inv_shiftIn u b
  | b32End => exact inv_reset
  | nop | dtClr | dtPush | dtExec | errAck => exact h

theorem legalToken_of_emits {u : B32e} {i : Instr} {t : Token} (h : t ∈ u.emits i) : legalToken t := by
  have chars : ∀ c ∈ alphabet, (0x32 ≤ charToken c ∧ charToken c ≤ 0x37) ∨ (0x41 ≤ charToken c ∧ charToken c ≤ 0x5A) := by
    decide
  obtain rfl | ⟨c, hc, rfl⟩ := B32e.eof_or_char_of_emits h
  · exact .inl rfl
  · exact .inr (chars c hc)

theorem firstError_le {c : BitVec 4} (h : c.toNat ≤ 2) (e : ErrorCode) : (firstError c e).toNat ≤ 2 := by
  unfold firstError
  split
  · cases e <;> decide
  · exact h

theorem Effect.errcode_le {i : Instr} {s u : State} (he : Effect i s u) (h : s.errcode.toNat ≤ 2) :
    u.errcode.toNat ≤ 2 := by
  cases he with
  | dtExecFails => exact firstError_le h _
  | errAck => exact Nat.zero_le _
  | _ => exact h

/-- A command keeps the invariant, unit by unit. -/
theorem Effect.blockInv {i : Instr} {s u : State} (he : Effect i s u) (h : BlockInv s) : BlockInv u := by
  obtain ⟨dtu, b32, errcode, out, consumed⟩ := (blockInv_iff s).mp h
  obtain ⟨-, -, sameConsumed⟩ := he.sameHostSide
  rw [blockInv_iff, he.dtu_eq, he.b32_eq, he.out_eq, sameConsumed]
  refine ⟨dtu.after i, b32.after i, he.errcode_le errcode, fun t ht => ?_, ?_⟩
  · exact (List.mem_append.mp ht).elim (out t) legalToken_of_emits
  · rw [List.length_append]; omega

theorem blockInv_raiseError {s : State} (h : BlockInv s) (e : ErrorCode) : BlockInv (raiseError e s) :=
  { h with errcodeRange := firstError_le h.errcodeRange e }

theorem blockInv_runWord {w : Word} {s t : State} (h : BlockInv s) (run : runWord w s = .next t) : BlockInv t := by
  obtain ⟨u, rfl, ⟨i, -, he⟩ | ⟨-, rfl⟩⟩ := runWord_cases run
  · exact { he.blockInv h with }
  · exact { blockInv_raiseError h .illegalCommand with }

theorem blockInv_hostConsume {s : State} (h : BlockInv s) : BlockInv (hostConsume s) :=
  { h with
    consumedBound := by
      have := h.consumedBound
      rw [hostConsume_consumed, hostConsume_out]
      split <;> omega }

theorem blockInv_hostReset {s : State} (h : BlockInv s) : BlockInv (hostReset s) :=
  (blockInv_iff _).mpr ⟨Dtu.inv_reset, B32e.inv_reset, Nat.zero_le _, h.tokensLegal,
    h.consumedBound⟩

theorem blockInv_setPort {s : State} (h : BlockInv s) (acts : List HostAction) : BlockInv (s.setPort acts) := { h with }

theorem blockInv_hold {s : State} (h : BlockInv s) (w : Word) : BlockInv (hold w s) := by
  unfold hold
  split
  · exact blockInv_setPort (blockInv_hostConsume h) _
  · exact blockInv_setPort h _

end Sys2Proof.Machine

namespace Sys2Proof.Proofs

open Sys2Proof.Machine Sys2Proof.Safety

/-- Settles O44: at reset no result stands, nothing is pending and nothing is emitted. -/
theorem invariantAtReset : Obligations.InvariantAtReset :=
  (blockInv_iff _).mpr ⟨Dtu.inv_reset, B32e.inv_reset, Nat.zero_le _, nofun, le_rfl⟩

/-- Settles O45, by the host's action: a word that runs, a word that is held, and each other action keep the invariant. -/
theorem everyStepKeepsTheInvariant : Obligations.EveryStepKeepsTheInvariant := by
  intro depth s t inv h
  cases served_of_stepWith h with
  | idle => exact inv
  | ran _ run => exact blockInv_runWord (blockInv_setPort inv _) run
  | held => exact blockInv_hold (blockInv_setPort inv _) _
  | read => exact { inv with }
  | reset => exact blockInv_hostReset (blockInv_setPort inv _)
  | consumed => exact blockInv_hostConsume (blockInv_setPort inv _)

end Sys2Proof.Proofs
end

section
/-! SUPPORT. A state and a history that agree go on agreeing: one lemma per command, per error and per other host action. -/

namespace Sys2Proof.Safety

open Sys2Proof.Machine

variable (h : History) (e : ErrorCode)

theorem History.raise_eq : h.raise e = { h with error := if h.error = .none then e else h.error } := by
  unfold History.raise; split <;> rfl

/-- The two ways an error is recorded, as a code and in a history, agree (R24). -/
theorem firstError_code (old : ErrorCode) : firstError old.code e = (if old = .none then e else old).code := by
  cases old <;> cases e <;> rfl

/-- At a frame boundary every token belongs to a frame that is over. -/
theorem History.tokens_of_boundary (boundary : h.frame = []) : h.tokens = h.closed := by
  rw [History.tokens, boundary]
  exact List.append_nil _

end Sys2Proof.Safety

namespace Sys2Proof.Machine

open Sys2Proof.Safety

/-- A digest that fits has the DTU's window value as its truncation (R66). -/
theorem truncate_of_fits {D : List Byte} {s : State} (h : HoldsDigest D s) (fits : windowFits s.dtu = true) :
    truncate D = some (windowValue s.dtu).toNat := truncate_of_window (windowIs_of_holdsDigest h fits)

variable {h : History} {s u : State}

/-- The items that a history speaks of are the two units, ERRCODE, k, OUT and the read answers. -/
theorem agrees_congr (ag : Agrees h s) (dtu : u.dtu = s.dtu) (b32 : u.b32 = s.b32) (errcode : u.errcode = s.errcode)
    (k : u.k = s.k) (out : u.out = s.out) (reads : u.reads = s.reads) : Agrees h u where
  digest := holdsDigest_congr ag.digest (by rw [dtu]) (by rw [dtu]) (by rw [dtu])
  result := dtu ▸ ag.result
  rvalid := dtu ▸ ag.rvalid
  invalid := dtu ▸ ag.invalid
  valueIsCurrent := ag.valueIsCurrent
  failureIsCurrent := ag.failureIsCurrent
  error := errcode.trans ag.error
  frame := holdsFrame_congr ag.frame b32
  out := out.trans ag.out
  index := k.trans ag.index
  answers := reads ▸ ag.answers

theorem agrees_tick (ag : Agrees h s) : Agrees { h with commands := h.commands + 1 } s.tick :=
  { ag with
    digest := holdsDigest_congr ag.digest rfl rfl rfl
    frame := holdsFrame_congr ag.frame rfl
    index := congrArg (· + 1) ag.index }

theorem agrees_raiseError (ag : Agrees h s) (e : ErrorCode) : Agrees (h.raise e) (raiseError e s) := by
  rw [History.raise_eq]
  exact {
    ag with
    digest := holdsDigest_congr ag.digest rfl rfl rfl
    frame := holdsFrame_congr ag.frame rfl
    error := (congrArg (firstError · e) ag.error).trans (firstError_code ..) }

/-- No command reads the index. -/
theorem Effect.tick {i : Instr} (he : Effect i s u) : Effect i s.tick u.tick := by
  cases he <;> constructor <;> assumption

/-- One command (R63 to R65, R73, R74, R84, R85). -/
theorem Effect.agrees {i : Instr} (he : Effect i s u) (ag : Agrees h s) : Agrees (h.afterCmd i) u := by
  have digest := he.holdsDigest ag.digest
  have frame := he.holdsFrame ag.frame
  cases he with
  | nop => exact ag
  | dtClr | dtPush =>
    exact {
      ag with
      digest, frame
      result := rfl
      rvalid := rfl
      invalid := rfl
      valueIsCurrent := nofun
      failureIsCurrent := nofun }
  | dtExecValue fits =>
    have value := truncate_of_fits ag.digest fits
    rw [History.afterCmd, value]
    exact {
      ag with
      digest, frame
      result := BitVec.toNat_setWidth_of_le (by decide)
      rvalid := rfl
      invalid := rfl
      valueIsCurrent := fun v hv => ExecOutcome.value.inj hv ▸ value
      failureIsCurrent := nofun }
  | dtExecFails short =>
    have fails := truncate_eq_none_of_holdsDigest ag.digest short
    rw [History.afterCmd, fails]
    refine agrees_raiseError (s := s.setDtu s.dtu.failResult) ?_ .invalidInput
    exact {
      ag with
      digest := holdsDigest_congr ag.digest rfl rfl rfl
      frame := holdsFrame_congr ag.frame rfl
      result := rfl
      rvalid := rfl
      invalid := rfl
      valueIsCurrent := nofun
      failureIsCurrent := fun _ => fails }
  | b32Push b => exact { ag with digest, frame, out := (Effect.b32Push b s).openTokens_out ag.frame ag.out nofun }
  | b32End =>
    have boundary := History.tokens_of_boundary (h.afterCmd .b32End) rfl
    have tokens := (Effect.b32End s).frameTokens_out ag.frame ag.out
    exact { ag with digest, frame, out := tokens.trans boundary.symm }
  | errAck => exact { ag with digest, frame, error := rfl }

/-- One command word, legal or not (R29, R54, R94). -/
theorem agrees_runWord {w : Word} {t : State} (ag : Agrees h s) (run : runWord w s = .next t) :
    Agrees (h.after (.command w)) t := by
  obtain ⟨u, rfl, ⟨i, hd, he⟩ | ⟨⟨v, why, hd⟩, rfl⟩⟩ := runWord_cases run
  · simp only [History.after, hd]
    exact he.tick.agrees (agrees_tick ag)
  · simp only [History.after, hd]
    exact agrees_raiseError (agrees_tick ag) .illegalCommand

theorem statusReg_toNat (s : State) :
    (statusReg s).toNat = s.dtu.len.toNat + s.dtu.rvalid.toNat * 2 ^ 5 + s.dtu.invalid.toNat * 2 ^ 6 +
      s.b32.cnt.toNat * 2 ^ 8 + s.errcode.toNat * 2 ^ 12 := by
  simp only [statusReg, append_toNat_eq_sum, BitVec.toNat_ofBool, BitVec.toNat_ofNat]
  omega

theorem result_lt (ag : Agrees h s) : h.outcome.result < 2 ^ 31 := by
  cases ho : h.outcome with
  | value v =>
    obtain ⟨_, b0, b1, b2, b3, -, rfl⟩ := window_of_truncate (ag.valueIsCurrent v ho)
    exact (compose b0 b1 b2 b3).isLt
  | nothing | failed => exact Nat.two_pow_pos 31

/-- A register reads as the history says (R25 to R28, R86). -/
theorem regRead_toNat_of_agrees (ag : Agrees h s) (a : RegAddr) : (regRead a s).toNat = h.view a := by
  have cases4 : ∀ a : RegAddr, a = 0 ∨ a = 1 ∨ a = 2 ∨ a = 3 := by decide
  obtain rfl | rfl | rfl | rfl := cases4 a
  · rw [regRead_result_toNat, ag.result, Nat.mod_eq_of_lt (result_lt ag)]; rfl
  · rw [regRead_status, statusReg_toNat, ag.digest.len, ag.rvalid, ag.invalid, ag.frame.cnt, ag.error]; rfl
  · obtain ⟨-, pending⟩ := (holdsFrame_iff _ _).mp ag.frame
    rw [regRead_acc_toNat, pending, pendingBits, Nat.mul_comm]; rfl
  · rfl

theorem agrees_hostRead (ag : Agrees h s) (a : RegAddr) : Agrees (h.after (.read a)) (hostRead a s) :=
  { ag with
    digest := holdsDigest_congr ag.digest rfl rfl rfl
    frame := holdsFrame_congr ag.frame rfl
    answers := by
      rw [hostRead_reads, List.map_append, ag.answers, List.map_singleton, regRead_toNat_of_agrees ag]; rfl }

theorem agrees_hostReset (ag : Agrees h s) : Agrees (h.after .reset) (hostReset s) :=
  { ag with
    digest := holdsDigest_hostReset s
    result := rfl
    rvalid := rfl
    invalid := rfl
    valueIsCurrent := nofun
    failureIsCurrent := nofun
    error := rfl
    frame := holdsFrame_nil rfl
    out := ag.out.trans (History.tokens_of_boundary (h.after .reset) rfl).symm }

theorem agrees_setPort (ag : Agrees h s) (acts : List HostAction) : Agrees h (s.setPort acts) :=
  agrees_congr ag rfl rfl rfl rfl rfl rfl

/-- One step (R113). -/
theorem step_agrees {a : HostAction} {rest : List HostAction} (ag : Agrees h s) (hp : s.port = a :: rest) :
    ∃ t, step s = .next t ∧ t.port = rest ∧ Agrees (h.after a) t := by
  have ag := agrees_setPort ag rest
  cases a with
  | command w =>
    obtain ⟨t, run⟩ := runWord_completes w (s.setPort rest)
    exact ⟨t, (step_command_unbounded hp).trans run, runWord_port run, agrees_runWord ag run⟩
  | read a => exact ⟨_, step_read hp, rfl, agrees_hostRead ag a⟩
  | reset => exact ⟨_, step_reset hp, rfl, agrees_hostReset ag⟩
  | consume => exact ⟨_, step_consume hp, rfl, agrees_congr ag rfl rfl rfl rfl rfl rfl⟩

theorem run_agrees {acts : List HostAction} (ag : Agrees h s) (hp : s.port = acts) :
    ∃ t, core.run acts.length s = .next t ∧ t.port = [] ∧ Agrees (acts.foldl History.after h) t := by
  induction acts generalizing h s with
  | nil => exact ⟨s, rfl, hp, ag⟩
  | cons a acts ih =>
    obtain ⟨t, hstep, hport, ag⟩ := step_agrees ag hp
    obtain ⟨u, run, drained, ag⟩ := ih ag hport
    exact ⟨u, (run_succ_of_step hstep _).trans run, drained, ag⟩

/-! ### A digest loaded from any state (R57) -/

/-- `t` is `s` with the bytes of `D` loaded: the DTU holds `D`, and nothing but the DTU and k is written. -/
structure Loaded (D : List Byte) (s t : State) : Prop where
  digest : HoldsDigest D t
  b32 : t.b32 = s.b32
  errcode : t.errcode = s.errcode
  out : t.out = s.out
  k : t.k = s.k + D.length + 1
  host : SameHostSide s t

theorem execAll_expandLoad (D : List Byte) (s : State) : ∃ t, execAll (expandLoad D) s = .next t ∧ Loaded D s t := by
  induction D using List.reverseRecOn with
  | nil => exact ⟨_, exec_dtClr s, holdsDigest_nil rfl, rfl, rfl, rfl, rfl, rfl, rfl, rfl⟩
  | append_singleton D b ih =>
    obtain ⟨t, run, digest, b32, errcode, out, k, host⟩ := ih
    have push : execAll (expandLoad (D ++ [b])) s = exec (.dtPush b) t := by
      rw [expandLoad, List.map_append, ← List.cons_append, ← expandLoad, execAll_append run, List.map_singleton,
        execAll_singleton]
    refine ⟨_, push.trans (exec_dtPush b t), holdsDigest_store rfl digest, b32, errcode, out, ?k, host⟩
    case k => rw [List.length_append]; exact congrArg (· + 1) k

end Sys2Proof.Machine

namespace Sys2Proof.Proofs

open Sys2Proof.Machine Sys2Proof.Safety

/-- Settles O46: the empty digest, the empty frame, no result and no error. -/
theorem startAgreesWithTheEmptyHistory : Obligations.StartAgreesWithTheEmptyHistory where
  digest := holdsDigest_nil rfl
  result := rfl
  rvalid := rfl
  invalid := rfl
  valueIsCurrent := nofun
  failureIsCurrent := nofun
  error := rfl
  frame := holdsFrame_nil rfl
  out := rfl
  index := rfl
  answers := rfl

/-- Settles O47, by the host's action (`step_agrees`). -/
theorem everyStepFollowsTheHistory : Obligations.EveryStepFollowsTheHistory := fun _ _ _ _ => step_agrees

/-- Settles O48: the step lemma along the stream, from a start that agrees with the empty history. -/
theorem runRefinesTheTwoFunctions : Obligations.RunRefinesTheTwoFunctions := by
  intro acts
  obtain ⟨t, run, drained, ag⟩ := run_agrees (agrees_setPort startAgreesWithTheEmptyHistory acts) rfl
  exact ⟨t, run, drained, ag, regRead_toNat_of_agrees ag⟩

/-- Settles O32: DT.CLR and the pushes load the digest, and DT.EXEC truncates what the DTU holds. -/
theorem loadedDigestIsTruncated : Obligations.LoadedDigestIsTruncated := by
  intro D s
  obtain ⟨t, load, digest, b32, errcode, out, k, host⟩ := execAll_expandLoad D s
  obtain ⟨u, he, hx⟩ := exec_completes .dtExec t
  have run : execAll (expandTrunc D) s = .next u.tick := by
    rw [expandTrunc, execAll_append load, execAll_singleton, hx]
  have k : t.k + 1 = s.k + D.length + 2 := congrArg (· + 1) k
  cases he with
  | dtExecValue fits =>
    have value := truncate_of_fits digest fits
    refine ⟨_, run, fun v hv => ?_, fun fails => ?_, b32, out, k, host⟩
    · cases value.symm.trans hv
      exact ⟨BitVec.toNat_setWidth_of_le (by decide), rfl, rfl, errcode⟩
    · cases value.symm.trans fails
  | dtExecFails short =>
    refine ⟨_, run, fun v hv => ?_, fun _ => ⟨rfl, rfl, rfl, ?_⟩, b32, out, k, host⟩
    · cases (truncate_eq_none_of_holdsDigest digest short).symm.trans hv
    · rw [← errcode]; rfl

end Sys2Proof.Proofs
end

section
/-! SUPPORT. Holding a command (R110). A held step serves a consumption or nothing, and no command, read or reset depends on
consumptions; so the block without them (`State.undrained`) takes the same steps at every depth, only later. -/

namespace Sys2Proof.Machine

open Sys2Proof.Safety

/-! ### The output buffer -/

theorem waiting_length (s : State) : s.waiting.length = s.out.length - s.consumed := List.length_drop

theorem waiting_hostConsume_le (s : State) : (hostConsume s).waiting.length ≤ s.waiting.length := by
  rw [waiting_length, waiting_length, hostConsume_out, hostConsume_consumed]
  split <;> omega

theorem waiting_hold_le (w : Word) (s : State) : (hold w s).waiting.length ≤ s.waiting.length := by
  unfold hold
  split
  · exact waiting_hostConsume_le s
  · exact le_rfl

theorem overflows_some_iff (d : Nat) (s t : State) :
    overflows (some d) s t = true ↔ s.out.length < t.out.length ∧ d < t.waiting.length := by
  simp [overflows]

/-- A held word stays first on the port, and no item of the block is written. -/
theorem hold_keeps (w : Word) (s : State) :
    (∃ rest, (hold w s).port = .command w :: rest) ∧ (hold w s).dtu = s.dtu ∧ (hold w s).b32 = s.b32 ∧
      (hold w s).errcode = s.errcode ∧ (hold w s).k = s.k ∧ (hold w s).out = s.out ∧ (hold w s).reads = s.reads := by
  unfold hold
  split <;> exact ⟨⟨_, rfl⟩, rfl, rfl, rfl, rfl, rfl, rfl⟩

/-- A word that emits nothing leaves the buffer as it is. -/
theorem runWord_waiting {w : Word} {s t : State} (h : runWord w s = .next t) (silent : t.out.length ≤ s.out.length) :
    t.waiting.length = s.waiting.length := by
  obtain ⟨-, -, consumed⟩ := runWord_sameHostSide h
  have grows := (runWord_out_prefix h).length_le
  rw [waiting_length, waiting_length, consumed, le_antisymm silent grows]

/-! ### The block without consumptions -/

/-- The state with no consumption pending and none made. -/
def State.undrained (s : State) : State := { s with port := s.port.filter (· ≠ .consume), consumed := 0 }

variable {s t : State} {depth : Option Nat}

theorem exec_of_effect {i : Instr} (he : Effect i s t) : exec i s = .next t.tick := by
  cases he with
  | dtExecValue fits => exact exec_dtExec_of_fits fits
  | dtExecFails short => exact exec_dtExec_of_not_fits short
  | _ => rfl

/-- No command reads or writes the port or the tokens taken. -/
theorem Effect.undrained {i : Instr} (he : Effect i s t) : Effect i s.undrained t.undrained := by
  cases he <;> constructor <;> assumption

theorem runWord_undrained {w : Word} (h : runWord w s = .next t) : runWord w s.undrained = .next t.undrained := by
  cases hd : decode w with
  | cmd i =>
    obtain ⟨u, he, rfl⟩ := effect_of_exec (runWord_cmd hd s ▸ h)
    exact (runWord_cmd hd _).trans (exec_of_effect he.undrained)
  | illegal v why =>
    rw [runWord_illegal hd] at h ⊢
    cases h
    rfl

theorem undrained_hold (w : Word) (s : State) : (hold w s).undrained = (s.setPort (.command w :: s.port)).undrained := by
  have erased : (s.port.erase .consume).filter (· ≠ .consume) = s.port.filter (· ≠ .consume) := by
    rw [← List.erase_filter, List.erase_of_not_mem (by simp)]
  unfold hold
  split
  · simpa [State.undrained, State.setPort, hostConsume] using erased
  · rfl

theorem undrained_port_cons {a : HostAction} {rest : List HostAction} (hp : s.port = a :: rest) (ha : a ≠ .consume) :
    s.undrained.port = a :: (s.setPort rest).undrained.port := by
  simp [State.undrained, hp, ha]

/-- A step at any depth is no step of the block without consumptions, or its next step at unbounded depth. -/
theorem step_undrained (h : stepWith depth s = .next t) :
    t.undrained = s.undrained ∨
      step s.undrained = .next t.undrained ∧ s.undrained.port.length = t.undrained.port.length + 1 := by
  cases served_of_stepWith h with
  | idle => exact .inl rfl
  | ran hp run =>
    have port := undrained_port_cons hp nofun
    refine .inr ⟨(step_command_unbounded port).trans (runWord_undrained run), ?_⟩
    rw [port, List.length_cons, State.undrained, State.undrained, runWord_port run]
  | held hp => exact .inl (by rw [undrained_hold, State.setPort_port, ← hp]; rfl)
  | read hp =>
    have port := undrained_port_cons hp nofun
    exact .inr ⟨step_read port, congrArg List.length port⟩
  | reset hp =>
    have port := undrained_port_cons hp nofun
    exact .inr ⟨step_reset port, congrArg List.length port⟩
  | consumed hp => exact .inl (by simp [State.undrained, State.setPort, hostConsume, hp])

theorem runWith_succ_of_step (h : stepWith depth s = .next t) (n : Nat) : runWith depth (n + 1) s = runWith depth n t := by
  simp only [runWith, h]

/-- A run that has carried out its stream, at any depth, is the unbounded run of the block without consumptions. -/
theorem run_undrained {n : Nat} (h : runWith depth n s = .next t) (drained : t.port = []) :
    core.run s.undrained.port.length s.undrained = .next t.undrained := by
  induction n generalizing s with
  | zero =>
    cases h
    rw [State.undrained, drained]; rfl
  | succ n ih =>
    obtain ⟨u, hu⟩ := stepWith_completes depth s
    rw [runWith_succ_of_step hu] at h
    obtain same | ⟨hstep, length⟩ := step_undrained hu
    · rw [← same, ih h]
    · rw [length, run_succ_of_step hstep, ih h]

theorem core_run_eq_runWith (n : Nat) (s : State) : core.run n s = runWith none n s := by
  induction n generalizing s with
  | zero => rfl
  | succ n ih =>
    obtain ⟨t, ht⟩ := stepWith_completes none s
    rw [run_succ_of_step ht, runWith_succ_of_step ht, ih]

/-- At unbounded depth a step takes the oldest action off the port. -/
theorem step_port {a : HostAction} {rest : List HostAction} (hp : s.port = a :: rest) (h : step s = .next t) :
    t.port = rest := by
  cases a with
  | command w => exact runWord_port (step_command_unbounded hp ▸ h)
  | read a => cases (step_read hp).symm.trans h; rfl
  | reset => cases (step_reset hp).symm.trans h; rfl
  | consume => cases (step_consume hp).symm.trans h; rfl

theorem run_drains {acts : List HostAction} (hp : s.port = acts) : ∃ t, core.run acts.length s = .next t ∧ t.port = [] := by
  induction acts generalizing s with
  | nil => exact ⟨s, rfl, hp⟩
  | cons a acts ih =>
    obtain ⟨u, hu⟩ := stepWith_completes none s
    obtain ⟨t, run, drained⟩ := ih (step_port hp hu)
    exact ⟨t, (run_succ_of_step hu _).trans run, drained⟩

/-- The items a host can see do not depend on what it has taken. -/
theorem eq_of_undrained_eq (h : s.undrained = t.undrained) :
    s.dtu = t.dtu ∧ s.b32 = t.b32 ∧ s.errcode = t.errcode ∧ s.k = t.k ∧ s.out = t.out ∧ s.reads = t.reads := by
  obtain ⟨dtu, b32, errcode, k, out, -, reads, -⟩ := State.mk.inj h
  exact ⟨dtu, b32, errcode, k, out, reads⟩

end Sys2Proof.Machine

namespace Sys2Proof.Proofs

open Sys2Proof.Machine Sys2Proof.Safety

/-- Settles O49: the word runs at unbounded depth; at depth `d` it is held where it would overflow, and else runs too. -/
theorem fullBufferHoldsTheCommand : Obligations.FullBufferHoldsTheCommand := by
  intro d s w rest hp
  obtain ⟨u, run⟩ := runWord_completes w (s.setPort rest)
  have unbounded : step s = .next u := (step_command_unbounded hp).trans run
  have bounded := (step_command (depth := some d) hp).trans (present_of_runWord run)
  by_cases held : s.out.length < u.out.length ∧ d < u.waiting.length
  · rw [if_pos ((overflows_some_iff d (s.setPort rest) u).mpr held)] at bounded
    refine ⟨_, u, unbounded, bounded, fun _ _ => hold_keeps w (s.setPort rest), fun fits => ?_, fun room => ?_⟩
    · exact absurd fits (not_or.mpr ⟨Nat.not_le.mpr held.1, Nat.not_le.mpr held.2⟩)
    · exact (waiting_hold_le w (s.setPort rest)).trans room
  · rw [if_neg (mt (overflows_some_iff d (s.setPort rest) u).mp held)] at bounded
    refine ⟨u, u, unbounded, bounded, fun emits full => absurd ⟨emits, full⟩ held, fun _ => rfl, fun room => ?_⟩
    obtain emits | silent := Nat.lt_or_ge s.out.length u.out.length
    · exact Nat.not_lt.mp fun full => held ⟨emits, full⟩
    · exact (runWord_waiting run silent).trans_le room

/-- Settles O50: both runs are the run of the block without consumptions. -/
theorem holdsChangeNoResult : Obligations.HoldsChangeNoResult := by
  intro d n s t run drained
  obtain ⟨u, run', drained'⟩ := run_drains (s := s) rfl
  have same : t.undrained = u.undrained := by
    rw [core_run_eq_runWith] at run'
    exact Host.Outcome.next.inj ((run_undrained run drained).symm.trans (run_undrained run' drained'))
  exact ⟨u, run', eq_of_undrained_eq same⟩

end Sys2Proof.Proofs
end

section
/-! SUPPORT. The assembler's texts and lines (R56): a text is split into its lines, a line into its mnemonic and its
operands. -/

namespace Sys2Proof.Machine

/-! ### Texts -/

/-- The assembler's splitting is the library's. -/
theorem splitAtChar_eq_splitOn (sep : Char) (cs : List Char) : splitAtChar sep cs = cs.splitOn sep := by
  induction cs with
  | nil => rfl
  | cons c cs ih =>
    rw [splitAtChar, ih, List.splitOn_cons_eq_if_modifyHead]
    cases h : cs.splitOn sep with
    | nil => exact absurd h (List.splitOn_ne_nil sep cs)
    | cons f fs => rfl

/-- A text's lines, put together with line breaks, are its lines again. -/
theorem assemble_intercalate {lines : List (List Char)} (nonempty : lines ≠ []) (noBreak : ∀ l ∈ lines, '\n' ∉ l) :
    assemble (['\n'].intercalate lines) = assembleLines 1 lines := by
  rw [assemble, splitAtChar_eq_splitOn, List.splitOn_intercalate '\n' noBreak nonempty]

theorem assembleLines_words {lines : List (List Char)} {wss : List (List Word)}
    (h : List.Forall₂ (fun l ws => ∀ n, assembleLine n l = .words ws) lines wss) (n : Nat) :
    assembleLines n lines = .words wss.flatten := by
  induction h generalizing n with
  | nil => rfl
  | cons hl _ ih => simp only [assembleLines, hl, ih, List.flatten_cons]

theorem assembleLines_refused {good : List (List Char)} {bad : List Char} {why : AsmError}
    (hgood : ∀ l ∈ good, ∃ ws, ∀ n, assembleLine n l = .words ws) (hbad : ∀ n, assembleLine n bad = .refused n why)
    (rest : List (List Char)) (n : Nat) : assembleLines n (good ++ bad :: rest) = .refused (good.length + n) why := by
  induction good generalizing n with
  | nil => simp only [List.nil_append, assembleLines, hbad, List.length_nil, Nat.zero_add]
  | cons l good ih =>
    obtain ⟨⟨ws, hl⟩, hgood⟩ := List.forall_mem_cons.mp hgood
    simp only [List.cons_append, assembleLines, hl, ih hgood, List.length_cons, Nat.add_assoc, Nat.add_comm 1]

/-! ### White space -/

/-- Text without white space and comments, as mnemonics and numerals are. -/
def Plain (cs : List Char) : Prop := ∀ c ∈ cs, c ≠ ';' ∧ isBlank c = false

/-- `Plain` as a check that evaluates. -/
theorem plain_iff_all (cs : List Char) : Plain cs ↔ cs.all (fun c => c != ';' && !isBlank c) = true := by
  simp [Plain]

theorem Plain.noComment {cs : List Char} (plain : Plain cs) : ';' ∉ cs := fun mem => (plain _ mem).1 rfl

theorem takeWhile_code_append {cs : List Char} (noComment : ';' ∉ cs) (r : List Char) :
    (cs ++ r).takeWhile (· != ';') = cs ++ r.takeWhile (· != ';') :=
  List.takeWhile_append_of_pos fun _ hc => bne_iff_ne.mpr fun h => noComment (h ▸ hc)

theorem takeWhile_code {cs : List Char} (noComment : ';' ∉ cs) : cs.takeWhile (· != ';') = cs := by
  simpa using takeWhile_code_append noComment []

theorem trimBlanks_eq (cs : List Char) : trimBlanks cs = (cs.dropWhile isBlank).rdropWhile isBlank := rfl

theorem dropWhile_blank_append {m : List Char} (nonempty : m ≠ []) (plain : Plain m) (r : List Char) :
    (m ++ r).dropWhile isBlank = m ++ r := by
  cases m with
  | nil => exact absurd rfl nonempty
  | cons c m =>
    obtain ⟨-, hc⟩ := plain c List.mem_cons_self
    rw [List.cons_append, List.dropWhile_cons_of_neg (by rw [hc]; decide)]

theorem rdropWhile_blank_append {m : List Char} (nonempty : m ≠ []) (plain : Plain m) (r : List Char) :
    (r ++ m).rdropWhile isBlank = r ++ m := by
  have plain' : Plain m.reverse := fun c hc => plain c (List.mem_reverse.mp hc)
  rw [List.rdropWhile, List.reverse_append, dropWhile_blank_append (by simpa using nonempty) plain', ← List.reverse_append,
    List.reverse_reverse]

/-- White space at the end of a longer text is at the end of its second part. -/
theorem rdropWhile_blank_plain_append {m : List Char} (plain : Plain m) (r : List Char) :
    (m ++ r).rdropWhile isBlank = m ++ r.rdropWhile isBlank := by
  induction r using List.reverseRecOn with
  | nil =>
    cases m with
    | nil => rfl
    | cons c m => simpa using rdropWhile_blank_append (List.cons_ne_nil c m) plain []
  | append_singleton r c ih =>
    rw [← List.append_assoc, List.rdropWhile_concat, List.rdropWhile_concat, ih]
    split
    · rfl
    · rw [List.append_assoc]

theorem trimBlanks_blank_cons (cs : List Char) : trimBlanks (' ' :: cs) = trimBlanks cs := rfl

/-- White space after a text does not count. -/
theorem trimBlanks_rdropWhile (cs : List Char) : trimBlanks (cs.rdropWhile isBlank) = trimBlanks cs := by
  induction cs using List.reverseRecOn with
  | nil => rfl
  | append_singleton cs c ih =>
    rw [List.rdropWhile_concat]
    split
    case isFalse => rfl
    case isTrue blank =>
      rw [ih, trimBlanks_eq, trimBlanks_eq, List.dropWhile_append]
      split
      case isTrue all =>
        rw [List.isEmpty_iff.mp all, List.dropWhile_cons_of_pos blank, List.dropWhile_nil]
      case isFalse => exact (List.rdropWhile_concat_pos _ _ _ blank).symm

/-! ### Lines -/

/-- A comment counts for nothing. -/
theorem assembleLine_comment {line : List Char} (noComment : ';' ∉ line) (n : Nat) (comment : List Char) :
    assembleLine n (line ++ ';' :: comment) = assembleLine n line := by
  have same : (line ++ ';' :: comment).takeWhile (· != ';') = line.takeWhile (· != ';') := by
    rw [takeWhile_code_append noComment, List.takeWhile_cons_of_neg (by decide), List.append_nil, takeWhile_code noComment]
  rw [assembleLine, assembleLine, same]

/-- A line of a mnemonic, a blank and operands is the mnemonic's statement on the operands before the comment. -/
theorem assembleLine_mnemonic {m : List Char} (nonempty : m ≠ []) (plain : Plain m) (n : Nat) (ops : List Char) :
    assembleLine n (m ++ ' ' :: ops) = assembleStatement n m (trimBlanks (ops.takeWhile (· != ';'))) := by
  have solid : ∀ c ∈ m, (!isBlank c) = true := fun c hc => by rw [(plain c hc).2]; rfl
  generalize hrest : ops.takeWhile (· != ';') = operands
  have uncommented : (m ++ ' ' :: ops).takeWhile (· != ';') = m ++ ' ' :: operands := by
    rw [takeWhile_code_append plain.noComment, List.takeWhile_cons_of_pos (by decide), hrest]
  generalize htail : (' ' :: operands).rdropWhile isBlank = tail
  have trimmed : trimBlanks (m ++ ' ' :: operands) = m ++ tail := by
    rw [trimBlanks_eq, dropWhile_blank_append nonempty plain, rdropWhile_blank_plain_append plain, htail]
  have mnemonic : (m ++ tail).takeWhile (fun c => !isBlank c) = m := by
    have stop : tail.takeWhile (fun c => !isBlank c) = [] := by
      have front : tail <+: ' ' :: operands := htail ▸ List.rdropWhile_prefix ..
      cases tail with
      | nil => rfl
      | cons c tail =>
        obtain ⟨rfl, -⟩ := List.cons_prefix_cons.mp front
        rfl
    rw [List.takeWhile_append_of_pos solid, stop, List.append_nil]
  simp only [assembleLine, uncommented, trimmed, mnemonic, if_neg nonempty, List.drop_left]
  rw [← htail, trimBlanks_rdropWhile, trimBlanks_blank_cons]

/-- Operands as they reach a statement: no comment and no outer white space. -/
structure OperandText (ops : List Char) : Prop where
  noComment : ';' ∉ ops
  trimmed : trimBlanks ops = ops

theorem assembleLine_operands {m ops : List Char} (nonempty : m ≠ []) (plain : Plain m) (text : OperandText ops) (n : Nat) :
    assembleLine n (m ++ ' ' :: ops) = assembleStatement n m ops := by
  rw [assembleLine_mnemonic nonempty plain, takeWhile_code text.noComment, text.trimmed]

theorem operandText_nil : OperandText [] := ⟨nofun, rfl⟩

theorem operandText_of_ends {ops first last : List Char} (noComment : ';' ∉ ops) (hf : first ≠ []) (pf : Plain first)
    (hl : last ≠ []) (pl : Plain last) (front : first <+: ops) (back : last <:+ ops) : OperandText ops := by
  refine ⟨noComment, ?_⟩
  obtain ⟨r, rfl⟩ := front
  obtain ⟨l, hl'⟩ := back
  rw [trimBlanks_eq, dropWhile_blank_append hf pf, ← hl', rdropWhile_blank_append hl pl]

theorem operandText_of_plain {ops : List Char} (nonempty : ops ≠ []) (plain : Plain ops) : OperandText ops :=
  operandText_of_ends plain.noComment nonempty plain nonempty plain List.prefix_rfl List.suffix_rfl

end Sys2Proof.Machine

namespace Sys2Proof.Proofs

open Sys2Proof.Machine

/-- Settles O55: the split text is assembled line after line, up to the first refused line. -/
theorem textAssemblesLineByLine : Obligations.TextAssemblesLineByLine := by
  refine ⟨fun lines wss nonempty noBreak hlines => ?_, fun good bad rest why noBreak hgood hbad => ?_⟩
  · rw [assemble_intercalate nonempty noBreak, assembleLines_words hlines]
  · rw [assemble_intercalate (by simp) noBreak, assembleLines_refused hgood hbad]

end Sys2Proof.Proofs
end

section
/-! SUPPORT. The assembler's operands (R56, R57): numerals, lists of bytes, hexadecimal strings and words. -/

namespace Sys2Proof.Machine

open Sys2Proof.Safety

/-! ### Digits -/

theorem decDigit_digitChar : ∀ d < 10, decDigit (Nat.digitChar d) = some d := by decide

theorem hexDigit_digitChar : ∀ d < 16, hexDigit (Nat.digitChar d) = some d := by decide

theorem hexDigit_of_decDigit {c : Char} {d : Nat} (h : decDigit c = some d) : hexDigit c = some d := by
  unfold decDigit at h
  unfold hexDigit
  split at h
  case isTrue dec => rw [if_pos dec, h]
  case isFalse => cases h

theorem hexDigit_lt {c : Char} {d : Nat} (h : hexDigit c = some d) : d < 16 := by
  unfold hexDigit at h
  split_ifs at h with dec upper lower <;> cases h
  · have : c.toNat ≤ 57 := UInt32.le_iff_toNat_le.mp dec.2
    omega
  · have : c.toNat ≤ 70 := UInt32.le_iff_toNat_le.mp upper.2
    omega
  · have : c.toNat ≤ 102 := UInt32.le_iff_toNat_le.mp lower.2
    omega

/-- Hexadecimal digits and the `x` of `0x`: no character a line or a list is cut at. -/
theorem numeralChar_plain {c : Char} (h : c = 'x' ∨ ∃ d, hexDigit c = some d) :
    c ≠ ';' ∧ isBlank c = false ∧ c ≠ ',' := by
  have others : ∀ e ∈ [';', ',', ' ', '\t', '\r'], c ≠ e := by
    rintro e he rfl
    have cut : c ≠ 'x' ∧ hexDigit c = none := by
      simp only [List.mem_cons, List.not_mem_nil, or_false] at he
      obtain rfl | rfl | rfl | rfl | rfl := he <;> exact ⟨by decide, rfl⟩
    obtain hx | ⟨d, hd⟩ := h
    · exact cut.1 hx
    · cases cut.2.symm.trans hd
  simp only [List.mem_cons, List.not_mem_nil, or_false, forall_eq_or_imp, forall_eq] at others
  obtain ⟨semicolon, comma, blanks⟩ := others
  exact ⟨semicolon, by simp [isBlank, blanks], comma⟩

/-! ### Numerals -/

theorem digitsFrom_concat (base : Nat) (digit : Char → Option Nat) (v : Nat) (cs : List Char) (c : Char) :
    digitsFrom base digit v (cs ++ [c]) =
      (digitsFrom base digit v cs).bind fun u => (digit c).map (u * base + ·) := by
  induction cs generalizing v with
  | nil =>
    simp only [List.nil_append, digitsFrom, Option.bind_some]
    cases digit c <;> rfl
  | cons e cs ih =>
    simp only [List.cons_append, digitsFrom]
    cases digit e with
    | none => rfl
    | some d => exact ih _

/-- A number's digits are read as that number. -/
theorem digitsFrom_toDigits {base : Nat} {digit : Char → Option Nat} (hbase : 1 < base)
    (hdigit : ∀ d < base, digit (Nat.digitChar d) = some d) (v : Nat) :
    digitsFrom base digit 0 (Nat.toDigits base v) = some v := by
  induction v using Nat.strongRecOn with
  | ind v ih =>
    by_cases small : v < base
    · simp [Nat.toDigits_of_lt_base small, digitsFrom, hdigit v small]
    · have less : v / base < v := Nat.div_lt_self (by omega) hbase
      rw [Nat.toDigits_of_base_le hbase (Nat.not_lt.mp small), digitsFrom_concat, ih _ less,
        hdigit _ (Nat.mod_lt _ (by omega))]
      exact congrArg some (Nat.div_add_mod' v base)

theorem digit_of_digitsFrom {base : Nat} {digit : Char → Option Nat} {v u : Nat} {cs : List Char}
    (h : digitsFrom base digit v cs = some u) : ∀ c ∈ cs, ∃ d, digit c = some d := by
  induction cs generalizing v with
  | nil => nofun
  | cons c cs ih =>
    rw [digitsFrom] at h
    cases hc : digit c with
    | none => rw [hc] at h; cases h
    | some d =>
      rw [hc] at h
      exact List.forall_mem_cons.mpr ⟨⟨d, hc⟩, ih h⟩

theorem numeral_hex {cs : List Char} (nonempty : cs ≠ []) : numeral ('0' :: 'x' :: cs) = digitsFrom 16 hexDigit 0 cs := by
  cases cs with
  | nil => exact absurd rfl nonempty
  | cons c cs => rfl

theorem numeral_dec {cs : List Char} {v : Nat} (nonempty : cs ≠ []) (h : digitsFrom 10 decDigit 0 cs = some v) :
    numeral cs = some v := by
  have digits := digit_of_digitsFrom h
  unfold numeral
  split
  · obtain ⟨d, hd⟩ := digits 'x' (by simp)
    cases hd
  · exact h
  · exact absurd rfl nonempty

theorem numeral_toDigits_dec (v : Nat) : numeral (Nat.toDigits 10 v) = some v :=
  numeral_dec Nat.toDigits_ne_nil (digitsFrom_toDigits (by decide) decDigit_digitChar v)

theorem numeral_toDigits_hex (v : Nat) : numeral ('0' :: 'x' :: Nat.toDigits 16 v) = some v :=
  (numeral_hex Nat.toDigits_ne_nil).trans (digitsFrom_toDigits (by decide) hexDigit_digitChar v)

theorem ne_nil_of_numeral {cs : List Char} {v : Nat} (h : numeral cs = some v) : cs ≠ [] := by
  rintro rfl; cases h

theorem numeral_chars {cs : List Char} {v : Nat} (h : numeral cs = some v) :
    ∀ c ∈ cs, c = 'x' ∨ ∃ d, hexDigit c = some d := by
  unfold numeral at h
  split at h
  case h_1 c cs =>
    have digits := digit_of_digitsFrom h
    have zero : hexDigit '0' = some 0 := rfl
    rintro e (_ | ⟨_, _ | ⟨_, he⟩⟩)
    · exact .inr ⟨0, zero⟩
    · exact .inl rfl
    · exact .inr (digits e he)
  case h_2 =>
    intro e he
    obtain ⟨d, hd⟩ := digit_of_digitsFrom h e he
    exact .inr ⟨d, hexDigit_of_decDigit hd⟩
  case h_3 => cases h

theorem plain_of_numeral {cs : List Char} {v : Nat} (h : numeral cs = some v) : Plain cs := by
  intro c hc
  obtain ⟨semicolon, blank, -⟩ := numeralChar_plain (numeral_chars h c hc)
  exact ⟨semicolon, blank⟩

theorem operandText_of_numeral {cs : List Char} {v : Nat} (h : numeral cs = some v) : OperandText cs :=
  operandText_of_plain (ne_nil_of_numeral h) (plain_of_numeral h)

/-! ### Bytes -/

theorem byteOperand_of_numeral {cs : List Char} {v : Nat} (h : numeral cs = some v) :
    byteOperand cs = if v ≤ 255 then some (BitVec.ofNat 8 v) else none := by
  rw [byteOperand, (operandText_of_numeral h).trimmed, h]

theorem byteOperand_blank_cons (cs : List Char) : byteOperand (' ' :: cs) = byteOperand cs := rfl

theorem digitsFrom_hexPair {p : List Char} {b : Byte} (h : HexPair p b) (v : Nat) (cs : List Char) :
    digitsFrom 16 hexDigit v (p ++ cs) = digitsFrom 16 hexDigit (v * 256 + b.toNat) cs := by
  cases h with
  | digits hx hy hb =>
    simp only [List.cons_append, List.nil_append, digitsFrom, hx, hy]
    congr 1
    omega

theorem numeral_of_byteText {t : List Char} {b : Byte} (h : ByteText t b) : numeral t = some b.toNat := by
  cases h with
  | decimal => exact numeral_toDigits_dec _
  | @hex cs _ pair =>
    have nonempty : cs ≠ [] := by rintro rfl; cases pair
    rw [numeral_hex nonempty]
    simpa [digitsFrom] using digitsFrom_hexPair pair 0 []

theorem byteOperand_of_byteText {t : List Char} {b : Byte} (h : ByteText t b) : byteOperand t = some b := by
  rw [byteOperand_of_numeral (numeral_of_byteText h), if_pos (Nat.le_of_lt_succ b.isLt), BitVec.ofNat_toNat,
    BitVec.setWidth_eq]

/-! ### Lists of bytes -/

theorem allSome_map_some (bs : List Byte) : allSome (bs.map some) = some bs := by
  induction bs with
  | nil => rfl
  | cons b bs ih => rw [List.map_cons, allSome, ih]; rfl

/-- The blank behind a comma belongs to the field behind it. -/
theorem intercalate_comma_blank (t : List Char) (ts : List (List Char)) :
    [',', ' '].intercalate (t :: ts) = [','].intercalate (t :: ts.map (' ' :: ·)) := by
  induction ts generalizing t with
  | nil => rfl
  | cons u us ih =>
    rw [List.intercalate_cons_cons, ih, List.map_cons, List.intercalate_cons_cons]
    cases us <;> simp [List.intercalate_cons_cons]

theorem byteOperands_of_ne_nil {cs : List Char} (h : cs ≠ []) :
    byteOperands cs = allSome ((cs.splitOn ',').map byteOperand) := by
  rw [← splitAtChar_eq_splitOn]
  cases cs with
  | nil => exact absurd rfl h
  | cons c cs => rfl

theorem map_byteOperand_of_byteTexts {texts : List (List Char)} {bs : List Byte} (h : List.Forall₂ ByteText texts bs) :
    texts.map byteOperand = bs.map some := by
  induction h with
  | nil => rfl
  | cons ht _ ih => rw [List.map_cons, List.map_cons, byteOperand_of_byteText ht, ih]

theorem numeral_of_mem_byteTexts {texts : List (List Char)} {bs : List Byte} (h : List.Forall₂ ByteText texts bs) :
    ∀ t ∈ texts, ∃ v, numeral t = some v := by
  induction h with
  | nil => nofun
  | cons ht _ ih => exact List.forall_mem_cons.mpr ⟨⟨_, numeral_of_byteText ht⟩, ih⟩

theorem mem_of_mem_intercalate {sep : List Char} {c : Char} {texts : List (List Char)} (h : c ∈ sep.intercalate texts) :
    c ∈ sep ∨ ∃ t ∈ texts, c ∈ t := by
  induction texts with
  | nil => cases h
  | cons t ts ih =>
    cases ts with
    | nil =>
      rw [List.intercalate_singleton] at h
      exact .inr ⟨t, List.mem_cons_self, h⟩
    | cons u us =>
      rw [List.intercalate_cons_cons, List.mem_append, List.mem_append] at h
      obtain (first | sep) | rest := h
      · exact .inr ⟨t, List.mem_cons_self, first⟩
      · exact .inl sep
      · exact (ih rest).imp_right fun ⟨f, hf, mem⟩ => ⟨f, List.mem_cons_of_mem _ hf, mem⟩

theorem suffix_intercalate {sep : List Char} {texts : List (List Char)} (h : texts ≠ []) :
    texts.getLast h <:+ sep.intercalate texts := by
  induction texts with
  | nil => exact absurd rfl h
  | cons t ts ih =>
    cases ts with
    | nil => rw [List.intercalate_singleton]; exact List.suffix_rfl
    | cons u us =>
      rw [List.intercalate_cons_cons, List.getLast_cons (List.cons_ne_nil u us)]
      exact (ih _).trans (List.suffix_append ..)

theorem prefix_intercalate (sep t : List Char) (ts : List (List Char)) : t <+: sep.intercalate (t :: ts) := by
  cases ts with
  | nil => rw [List.intercalate_singleton]
  | cons u us => rw [List.intercalate_cons_cons, List.append_assoc]; exact List.prefix_append ..

theorem operandText_of_byteTexts {texts : List (List Char)} {bs : List Byte} (h : List.Forall₂ ByteText texts bs) :
    OperandText ([',', ' '].intercalate texts) := by
  have numerals := numeral_of_mem_byteTexts h
  cases texts with
  | nil => exact operandText_nil
  | cons t ts =>
    obtain ⟨v, first⟩ := numerals t List.mem_cons_self
    obtain ⟨u, last⟩ := numerals _ (List.getLast_mem (List.cons_ne_nil t ts))
    refine operandText_of_ends (fun mem => ?_) (ne_nil_of_numeral first) (plain_of_numeral first)
      (ne_nil_of_numeral last) (plain_of_numeral last) (prefix_intercalate ..) (suffix_intercalate _)
    obtain sep | ⟨f, hf, mem⟩ := mem_of_mem_intercalate mem
    · revert sep; decide
    · obtain ⟨w, hw⟩ := numerals f hf
      exact (plain_of_numeral hw).noComment mem

theorem byteOperands_intercalate {texts : List (List Char)} {bs : List Byte} (h : List.Forall₂ ByteText texts bs) :
    byteOperands ([',', ' '].intercalate texts) = some bs := by
  cases texts with
  | nil => cases h; rfl
  | cons t ts =>
    have noComma : ∀ f ∈ t :: ts, ',' ∉ f := fun f hf mem => by
      obtain ⟨v, hv⟩ := numeral_of_mem_byteTexts h f hf
      obtain ⟨-, -, comma⟩ := numeralChar_plain (numeral_chars hv _ mem)
      exact comma rfl
    have noComma' : ∀ f ∈ t :: ts.map (' ' :: ·), ',' ∉ f := by
      simpa using noComma
    have nonempty : [',', ' '].intercalate (t :: ts) ≠ [] := by
      obtain ⟨v, hv⟩ := numeral_of_mem_byteTexts h t List.mem_cons_self
      exact (prefix_intercalate ..).ne_nil (ne_nil_of_numeral hv)
    have fields : (t :: ts.map (' ' :: ·)).map byteOperand = (t :: ts).map byteOperand := by
      simp [byteOperand_blank_cons]
    rw [byteOperands_of_ne_nil nonempty, intercalate_comma_blank, List.splitOn_intercalate ',' noComma' (by simp), fields,
      map_byteOperand_of_byteTexts h, allSome_map_some]

/-! ### Hexadecimal strings -/

theorem hexPairs_of_pairs {pairs : List (List Char)} {bs : List Byte} (h : List.Forall₂ HexPair pairs bs) :
    hexPairs pairs.flatten = some bs := by
  induction h with
  | nil => rfl
  | cons pair _ ih =>
    cases pair with
    | digits hx hy hb =>
      simp only [List.flatten_cons, List.cons_append, List.nil_append, hexPairs, hx, hy, ih, ← hb]
      simp

theorem digits_of_hexPairs {cs : List Char} {bs : List Byte} (h : hexPairs cs = some bs) :
    cs.length % 2 = 0 ∧ ∀ c ∈ cs, ∃ d, hexDigit c = some d := by
  induction cs using hexPairs.induct generalizing bs with
  | case1 => exact ⟨rfl, nofun⟩
  | case2 => cases h
  | case3 hi lo cs x y hy hx ih =>
    rw [hexPairs, hx, hy] at h
    obtain ⟨bs, h, -⟩ := Option.map_eq_some_iff.mp h
    obtain ⟨even, digits⟩ := ih h
    exact ⟨by rw [List.length_cons, List.length_cons]; omega,
      List.forall_mem_cons.mpr ⟨⟨x, hx⟩, List.forall_mem_cons.mpr ⟨⟨y, hy⟩, digits⟩⟩⟩
  | case4 hi lo cs noDigits =>
    rw [hexPairs] at h
    split at h
    case h_1 x y hx hy => exact (noDigits x y hx hy).elim
    case h_2 => cases h

theorem hexString_quoted (cs : List Char) : hexString ('"' :: (cs ++ ['"'])) = hexPairs cs := by
  simp [hexString]

end Sys2Proof.Machine
end

section
/-! SUPPORT. The assembler's statements (R56, R57): one equation per kind of mnemonic, and then the lines. -/

namespace Sys2Proof.Machine

open Sys2Proof.Safety

variable {m : List Char} (n : Nat) (ops : List Char)

theorem assembleStatement_bare {i : Instr} (bare : bareCommand m = some i) :
    assembleStatement n m ops = if ops = [] then .words [encode i] else .refused n .unexpectedOperand := by
  rw [assembleStatement, bare]

theorem assembleStatement_byte {f : Byte → Instr} (notBare : bareCommand m = none) (byte : byteCommand m = some f) :
    assembleStatement n m ops = (byteOperand ops).elim (.refused n .badOperand) fun b => .words [encode (f b)] := by
  rw [assembleStatement, notBare, byte]
  cases byteOperand ops <;> rfl

theorem assembleStatement_list {f : List Byte → List Instr} (notBare : bareCommand m = none)
    (notByte : byteCommand m = none) (list : listCommand m = some f) :
    assembleStatement n m ops =
      (byteOperands ops).elim (.refused n .badOperand) fun bs => .words ((f bs).map encode) := by
  rw [assembleStatement, notBare, notByte, list]
  cases byteOperands ops <;> rfl

theorem assembleStatement_loadHex :
    assembleStatement n "DT.LOADHEX".toList ops =
      (hexString ops).elim (.refused n .badHexString) fun bs => .words ((expandLoad bs).map encode) := by
  have notBare : bareCommand "DT.LOADHEX".toList = none := rfl
  have notByte : byteCommand "DT.LOADHEX".toList = none := rfl
  have notList : listCommand "DT.LOADHEX".toList = none := rfl
  rw [assembleStatement, notBare, notByte, notList]
  cases hexString ops <;> rfl

theorem assembleStatement_word :
    assembleStatement n ".word".toList ops = (wordLiteral ops).elim (.refused n .badOperand) fun w => .words [w] := by
  have notBare : bareCommand ".word".toList = none := rfl
  have notByte : byteCommand ".word".toList = none := rfl
  have notList : listCommand ".word".toList = none := rfl
  rw [assembleStatement, notBare, notByte, notList]
  cases wordLiteral ops <;> rfl

/-- The mnemonics of R52 and R57 and the directive of R56. -/
def knownMnemonics : List String :=
  opcodeTable.map (·.mnemonic) ++ ["DT.LOAD", "DT.TRUNC", "DT.LOADHEX", "B32.FRAME", ".word"]

theorem knownMnemonics_eq : knownMnemonics = ["NOP", "DT.CLR", "DT.PUSH", "DT.EXEC", "B32.PUSH", "B32.END", "ERR.ACK",
    "DT.LOAD", "DT.TRUNC", "DT.LOADHEX", "B32.FRAME", ".word"] := rfl

theorem assembleStatement_unknown (unknown : ∀ known ∈ knownMnemonics, m ≠ known.toList) :
    assembleStatement n m ops = .refused n .unknownMnemonic := by
  simp only [knownMnemonics_eq, List.forall_mem_cons] at unknown
  obtain ⟨nop, dtClr, dtPush, dtExec, b32Push, b32End, errAck, load, trunc, loadHex, frame, word, -⟩ := unknown
  have notBare : bareCommand m = none := by simp only [bareCommand, nop, dtClr, dtExec, b32End, errAck, if_false]
  have notByte : byteCommand m = none := by simp only [byteCommand, dtPush, b32Push, if_false]
  have notList : listCommand m = none := by simp only [listCommand, load, trunc, frame, if_false]
  simp only [assembleStatement, notBare, notByte, notList, loadHex, word, if_false]

theorem known_plain : ∀ known ∈ knownMnemonics, known.toList ≠ [] ∧ Plain known.toList := by
  simp only [knownMnemonics_eq, plain_iff_all]; decide

/-! ### Lines -/

/-- A known mnemonic, a blank and operands. -/
theorem assembleLine_known {known : String} (mem : known ∈ knownMnemonics) {ops : List Char} (text : OperandText ops) :
    assembleLine n (known.toList ++ ' ' :: ops) = assembleStatement n known.toList ops := by
  obtain ⟨nonempty, plain⟩ := known_plain known mem
  exact assembleLine_operands nonempty plain text n

/-- A push's line is its word, or is refused where its operand is no byte. -/
theorem assembleLine_byte {known : String} (mem : known ∈ knownMnemonics) {f : Byte → Instr}
    (notBare : bareCommand known.toList = none) (byte : byteCommand known.toList = some f) {t : List Char} {v : Nat}
    (h : numeral t = some v) :
    assembleLine n (known.toList ++ ' ' :: t) =
      if v ≤ 255 then .words [encode (f (BitVec.ofNat 8 v))] else .refused n .badOperand := by
  rw [assembleLine_known n mem (operandText_of_numeral h), assembleStatement_byte n t notBare byte,
    byteOperand_of_numeral h]
  split <;> rfl

theorem assembleLine_byteText {known : String} (mem : known ∈ knownMnemonics) {f : Byte → Instr}
    (notBare : bareCommand known.toList = none) (byte : byteCommand known.toList = some f) {t : List Char} {b : Byte}
    (h : ByteText t b) : assembleLine n (known.toList ++ ' ' :: t) = .words [encode (f b)] := by
  rw [assembleLine_known n mem (operandText_of_numeral (numeral_of_byteText h)), assembleStatement_byte n t notBare byte,
    byteOperand_of_byteText h]
  rfl

theorem assembleLine_list {known : String} (mem : known ∈ knownMnemonics) {f : List Byte → List Instr}
    (notBare : bareCommand known.toList = none) (notByte : byteCommand known.toList = none)
    (list : listCommand known.toList = some f) {texts : List (List Char)} {bs : List Byte}
    (h : List.Forall₂ ByteText texts bs) :
    assembleLine n (known.toList ++ ' ' :: [',', ' '].intercalate texts) = .words ((f bs).map encode) := by
  rw [assembleLine_known n mem (operandText_of_byteTexts h), assembleStatement_list n _ notBare notByte list,
    byteOperands_intercalate h]
  rfl

theorem assembleLine_loadHex {cs : List Char} (noComment : ';' ∉ cs) :
    assembleLine n ("DT.LOADHEX \"".toList ++ cs ++ ['"']) =
      (hexPairs cs).elim (.refused n .badHexString) fun bs => .words ((expandLoad bs).map encode) := by
  have quote : Plain ['"'] := (plain_iff_all _).mpr rfl
  have text : OperandText ('"' :: (cs ++ ['"'])) :=
    operandText_of_ends (by simpa using noComment) (by simp) quote (by simp) quote
      (List.prefix_append ['"'] _) (List.suffix_append ('"' :: cs) _)
  have line := assembleLine_known n (known := "DT.LOADHEX") (by simp [knownMnemonics_eq]) text
  rw [assembleStatement_loadHex, hexString_quoted] at line
  exact line

theorem numeral_of_hexPairs {p q : List Char} {hi lo : Byte} (hp : HexPair p hi) (hq : HexPair q lo) :
    numeral ('0' :: 'x' :: (p ++ q)) = some (hi ++ lo).toNat := by
  have nonempty : p ++ q ≠ [] := by cases hp; simp
  have second := digitsFrom_hexPair hq hi.toNat []
  rw [List.append_nil] at second
  rw [numeral_hex nonempty, digitsFrom_hexPair hp, Nat.zero_mul, Nat.zero_add, second, append_toNat_eq_sum]
  rfl

theorem wordLiteral_of_hexPairs {p q : List Char} {hi lo : Byte} (hp : HexPair p hi) (hq : HexPair q lo) :
    wordLiteral ('0' :: 'x' :: (p ++ q)) = some (hi ++ lo) := by
  have value := numeral_of_hexPairs hp hq
  cases hp; cases hq
  rw [numeral_hex (by simp)] at value
  refine (congrArg (Option.map (BitVec.ofNat 16)) value).trans ?_
  rw [Option.map_some, BitVec.ofNat_toNat]
  rfl

/-- What trimming leaves empty was white space. -/
theorem blank_of_trimBlanks_eq_nil {cs : List Char} (h : trimBlanks cs = []) : ∀ c ∈ cs, isBlank c = true := by
  rw [trimBlanks_eq, List.rdropWhile_eq_nil_iff, ← List.dropWhile_eq_nil_iff, List.dropWhile_idempotent,
    List.dropWhile_eq_nil_iff] at h
  exact h

/-- A command without an operand refuses any operand. -/
theorem assembleLine_bare_refused {known : String} (mem : known ∈ knownMnemonics)
    {i : Instr} (bare : bareCommand known.toList = some i) {ops : List Char} (noComment : ';' ∉ ops)
    (operand : ∃ c ∈ ops, isBlank c = false) :
    assembleLine n (known.toList ++ ' ' :: ops) = .refused n .unexpectedOperand := by
  obtain ⟨nonempty, plain⟩ := known_plain known mem
  obtain ⟨c, hc, solid⟩ := operand
  have some : trimBlanks ops ≠ [] := fun empty => by
    rw [blank_of_trimBlanks_eq_nil empty c hc] at solid; cases solid
  rw [assembleLine_mnemonic nonempty plain, takeWhile_code noComment, assembleStatement_bare n _ bare,
    if_neg some]

/-! ### The expansions' words (R57) -/

theorem map_encode_expandLoad (bs : List Byte) :
    (expandLoad bs).map encode = 0x1000 :: bs.map (fun b => 0x20#8 ++ b) := by
  rw [expandLoad, List.map_cons, List.map_map]; rfl

theorem map_encode_expandTrunc (bs : List Byte) :
    (expandTrunc bs).map encode = 0x1000 :: bs.map (fun b => 0x20#8 ++ b) ++ [0x3000] := by
  rw [expandTrunc, List.map_append, map_encode_expandLoad]; rfl

theorem map_encode_expandFrame (bs : List Byte) :
    (expandFrame bs).map encode = bs.map (fun b => 0x40#8 ++ b) ++ [0x5000] := by
  rw [expandFrame, List.map_append, List.map_map]; rfl

/-- A push's word as the sum of its row's bits and its operand. -/
theorem append_eq_add_of_lt (op : Byte) {v : Nat} (h : v < 256) :
    op ++ BitVec.ofNat 8 v = BitVec.ofNat 16 (op.toNat * 256) + BitVec.ofNat 16 v := by
  have := op.isLt
  apply BitVec.eq_of_toNat_eq
  rw [append_toNat_eq_sum, ← BitVec.ofNat_add, BitVec.toNat_ofNat, BitVec.toNat_ofNat]
  omega

end Sys2Proof.Machine

namespace Sys2Proof.Proofs

open Sys2Proof.Machine Sys2Proof.Safety

/-- Settles O54, a line's kind at a time: numerals, words, comments, and the three refusals. -/
theorem commandLinesAssembleOrAreRefused : Obligations.CommandLinesAssembleOrAreRefused := by
  refine ⟨fun n t b h => ⟨?_, ?_⟩, fun n p q hi lo hp hq => ?_, fun n line comment noComment => ?_,
    fun n v large m hm t ht => ?_, fun n ops noComment operand m hm => ?_, fun n m ops nonempty plain unknown => ?_⟩
  · exact assembleLine_byteText n (known := "DT.PUSH") (by simp [knownMnemonics_eq]) rfl rfl h
  · exact assembleLine_byteText n (known := "B32.PUSH") (by simp [knownMnemonics_eq]) rfl rfl h
  · have text := operandText_of_numeral (numeral_of_hexPairs hp hq)
    have line := assembleLine_known n (known := ".word") (by simp [knownMnemonics_eq]) text
    rw [assembleStatement_word, wordLiteral_of_hexPairs hp hq] at line
    exact line
  · exact assembleLine_comment noComment n comment
  · have value : numeral t = some v := by
      simp only [List.mem_cons, List.not_mem_nil, or_false] at ht
      obtain rfl | rfl := ht
      · exact numeral_toDigits_dec v
      · exact numeral_toDigits_hex v
    simp only [List.mem_cons, List.not_mem_nil, or_false] at hm
    obtain rfl | rfl := hm
    all_goals rw [assembleLine_byte n (by simp [knownMnemonics_eq]) rfl rfl value, if_neg (Nat.not_le.mpr large)]
  · have bare : m ∈ knownMnemonics ∧ ∃ i, bareCommand m.toList = some i := by
      simp only [List.mem_cons, List.not_mem_nil, or_false] at hm
      obtain rfl | rfl | rfl | rfl | rfl := hm <;> exact ⟨by simp [knownMnemonics_eq], _, rfl⟩
    obtain ⟨mem, i, bare⟩ := bare
    exact assembleLine_bare_refused n mem bare noComment operand
  · rw [assembleLine_mnemonic nonempty plain, assembleStatement_unknown n _ unknown]

/-- Settles O53: the texts' bytes are the operands, and a quoted string's bytes are its pairs of digits. -/
theorem pseudoCommandsExpandForEveryByteList : Obligations.PseudoCommandsExpandForEveryByteList := by
  refine ⟨fun n texts bs h => ⟨?_, ?_, ?_⟩, fun n pairs bs h => ?_, fun n cs noComment bad => ?_⟩
  · rw [← map_encode_expandLoad]
    exact assembleLine_list n (known := "DT.LOAD") (by simp [knownMnemonics_eq]) rfl rfl rfl h
  · rw [← map_encode_expandTrunc]
    exact assembleLine_list n (known := "DT.TRUNC") (by simp [knownMnemonics_eq]) rfl rfl rfl h
  · rw [← map_encode_expandFrame]
    exact assembleLine_list n (known := "B32.FRAME") (by simp [knownMnemonics_eq]) rfl rfl rfl h
  · have bytes := hexPairs_of_pairs h
    obtain ⟨-, digits⟩ := digits_of_hexPairs bytes
    have noComment : ';' ∉ pairs.flatten := fun mem => by
      obtain ⟨semicolon, -⟩ := numeralChar_plain (.inr (digits _ mem))
      exact semicolon rfl
    rw [assembleLine_loadHex n noComment, bytes, Option.elim_some, map_encode_expandLoad]
  · have none : hexPairs cs = none := by
      by_contra some
      obtain ⟨bs, hbs⟩ := Option.ne_none_iff_exists'.mp some
      obtain ⟨even, digits⟩ := digits_of_hexPairs hbs
      obtain odd | ⟨c, hc, noDigit⟩ := bad
      · omega
      · obtain ⟨d, hd⟩ := digits c hc
        cases noDigit.symm.trans hd
    rw [assembleLine_loadHex n noComment, none, Option.elim_none]

/-- Settles O51: the lines without operand digits evaluated, the two pushes by `assembleLine_byteText`. -/
theorem commandSampleLines : Obligations.CommandSampleLines := by
  refine ⟨fun n => ⟨rfl, rfl, rfl, rfl, rfl⟩, fun n h l x y hx hy => ?_, fun n => ⟨rfl, rfl, rfl, rfl⟩⟩
  have byte : 16 * x + y < 256 := by
    have := hexDigit_lt hx; have := hexDigit_lt hy; omega
  have text : ByteText ['0', 'x', h, l] (BitVec.ofNat 8 (16 * x + y)) :=
    .hex (.digits hx hy (BitVec.toNat_ofNat .. |>.trans (Nat.mod_eq_of_lt byte)))
  obtain ⟨dtPush, b32Push⟩ := commandLinesAssembleOrAreRefused.1 n _ _ text
  rw [append_eq_add_of_lt _ byte] at dtPush b32Push
  exact ⟨dtPush, b32Push⟩

/-- Settles O52: each line evaluated. -/
theorem pseudoCommandSampleLines : Obligations.PseudoCommandSampleLines :=
  fun _ => ⟨rfl, rfl, rfl, rfl, rfl, rfl, rfl⟩

end Sys2Proof.Proofs
end
